-- ==== Sys2Proof/Word.lean ====
section
/-! DEFINITION. The two variants of the engine and the word type of each (spec/00_scope.md R1, R2, R6). -/

namespace Sys2Proof

/-- R2: the build-time parameter `VARIANT` of an engine. -/
inductive Variant where
  | mt32   -- MT19937
  | mt64   -- MT19937-64
deriving DecidableEq, Repr

/-- R2: `W`, the word width in bits. -/
abbrev Variant.W : Variant → Nat
  | .mt32 => 32
  | .mt64 => 64

/-- R6: a word, an unsigned integer of exactly `W` bits. -/
abbrev Word (v : Variant) := BitVec v.W

/-- R61: a command word is `8 + W` bits wide. -/
abbrev CommandWord (v : Variant) := BitVec (8 + v.W)

/-- R62: a response is `4 + W` bits wide. -/
abbrev ResponseWord (v : Variant) := BitVec (4 + v.W)

/-- A byte. -/
abbrev Byte := BitVec 8

end Sys2Proof
end

