-- ==== Sys2Proof/Syntax.lean ====
section
/-! DEFINITION. The commands of the command port: one constructor per row of spec/opcode_table.json
(spec/30_encoding.md R63). -/

namespace Sys2Proof

/-- R63: the eight commands. An operand is an unsigned integer, as R70 writes it; `Instr.wellFormed` bounds it by the
word width of the port it is sent to. Format Z commands have no operand (R61). The instance a command is sent to is
no part of the command word: it is the port the word arrives on (R60). -/
inductive Instr where
  | seed (arg : Nat)
  | kclr
  | kpush (arg : Nat)
  | seedk
  | next
  | next32
  | rdcur
  | clone (src : Nat)
deriving DecidableEq, Repr

end Sys2Proof
end

