-- ==== Sys2Proof/WellFormed.lean ====
section
/-! DEFINITION. Which commands a port of each variant can be sent (spec/30_encoding.md R61, R63, R65, R70). -/

namespace Sys2Proof

/-- R70: the operand of a format A command is less than `2^W` of the target. -/
def Instr.operandFits (v : Variant) : Instr → Bool
  | .seed arg => decide (arg < 2 ^ v.W)
  | .kclr => true
  | .kpush arg => decide (arg < 2 ^ v.W)
  | .seedk => true
  | .next => true
  | .next32 => true
  | .rdcur => true
  | .clone src => decide (src < 2 ^ v.W)

/-- R63, R65: the opcode is legal on the variant: `NEXT32` is not on MT32. -/
def Instr.legalOn (v : Variant) : Instr → Bool
  | .seed _ => true
  | .kclr => true
  | .kpush _ => true
  | .seedk => true
  | .next => true
  | .next32 => decide (v = .mt64)
  | .rdcur => true
  | .clone _ => true

/-- A command that some command word of a port of variant `v` stands for. -/
def Instr.wellFormed (v : Variant) (i : Instr) : Bool := i.operandFits v && i.legalOn v

end Sys2Proof
end

