-- ==== Sys2Proof/Decode.lean ====
section
/-! DEFINITION. The decoder and the encoder of command words (spec/30_encoding.md R61, R63, R64, R65, R66), and the
host's table-numbered words. -/

namespace Sys2Proof

/-- R65: why a command word is no command: each is answered by `IllegalCommand` (R134). -/
inductive Illegal where
  | reservedOpcode (op : BitVec 8)   -- opcode 0x00 or 0x09 to 0xFF
  | next32OnMt32                     -- opcode 0x06 on an MT32 port
deriving DecidableEq, Repr

/-- What the decoder answers: a command, or a rejection by name. -/
inductive Decoded where
  | command (i : Instr)
  | illegal (why : Illegal)
deriving DecidableEq, Repr

/-- R61: `op`, bits `W+7` down to `W` of a command word. -/
def opField (v : Variant) (cw : CommandWord v) : BitVec 8 := cw.extractLsb' v.W 8

/-- R61: `arg`, bits `W-1` down to 0 of a command word. -/
def argField (v : Variant) (cw : CommandWord v) : Word v := cw.extractLsb' 0 v.W

/-- R66: total decoding of a command word on a port of variant `v`. The opcodes are those of R63; the operand of a
format Z command is ignored (R61). -/
def decode (v : Variant) (cw : CommandWord v) : Decoded :=
  match (opField v cw).toNat with
  | 0x01 => .command (.seed (argField v cw).toNat)
  | 0x02 => .command .kclr
  | 0x03 => .command (.kpush (argField v cw).toNat)
  | 0x04 => .command .seedk
  | 0x05 => .command .next
  | 0x06 => if v = .mt64 then .command .next32 else .illegal .next32OnMt32
  | 0x07 => .command .rdcur
  | 0x08 => .command (.clone (argField v cw).toNat)
  | _ => .illegal (.reservedOpcode (opField v cw))

/-- R63: the opcode of each command. -/
def Instr.opcode : Instr → BitVec 8
  | .seed _ => 0x01
  | .kclr => 0x02
  | .kpush _ => 0x03
  | .seedk => 0x04
  | .next => 0x05
  | .next32 => 0x06
  | .rdcur => 0x07
  | .clone _ => 0x08

/-- R61: the operand bits an assembler writes: the operand of format A, zero for format Z. -/
def Instr.argBits (v : Variant) : Instr → Word v
  | .seed arg => BitVec.ofNat v.W arg
  | .kclr => 0
  | .kpush arg => BitVec.ofNat v.W arg
  | .seedk => 0
  | .next => 0
  | .next32 => 0
  | .rdcur => 0
  | .clone src => BitVec.ofNat v.W src

/-- R61: the command word of a command: the opcode in the top eight bits, the operand below. -/
def encode (v : Variant) (i : Instr) : CommandWord v := i.opcode ++ i.argBits v

/-- Log entry 11 (DESIGN CHOICE): the command word that `nbits` table-numbered bits `w` stand for, with the variant
of the port it is for. The whole-word columns of spec/opcode_table.json are 40 bits (MT32) and 72 bits (MT64) wide
and number a command word as R61 does; the `match` column is the opcode field alone, read here as the MT64 command
(every row is legal there) with zero operand. -/
def tableWord (nbits w : Nat) : (v : Variant) × CommandWord v :=
  if nbits = 40 then ⟨.mt32, BitVec.ofNat (8 + 32) w⟩
  else if nbits = 72 then ⟨.mt64, BitVec.ofNat (8 + 64) w⟩
  else ⟨.mt64, BitVec.ofNat 8 w ++ 0#64⟩

/-- The command the decoder reads from a table-numbered word. -/
def decodeTableWord (nbits w : Nat) : Option Instr :=
  match decode (tableWord nbits w).1 (tableWord nbits w).2 with
  | .command i => some i
  | .illegal _ => none

end Sys2Proof
end

