-- ==== Sys2Proof/Config.lean ====
section
/-! DEFINITION. What the spec leaves open: the build parameters of a system (spec/00_scope.md R5) and the free
values of the two arrays after reset (spec/10_state.md R29, spec/93_implementation_defined.md U1, U4). -/

namespace Sys2Proof

/-- R5: the open parameters of a system: `KEY_MAX`, and `VARIANT(d)` for each `d`, whose number is `NUM_INST`. -/
structure Config where
  keyMax   : Nat
  variants : List Variant
deriving DecidableEq, Repr

/-- R5: `NUM_INST`. -/
def Config.numInst (c : Config) : Nat := c.variants.length

/-- R5: `1 <= KEY_MAX < 2^32` and `NUM_INST >= 1`. -/
abbrev Config.Legal (c : Config) : Prop := 1 ≤ c.keyMax ∧ c.keyMax < 2 ^ 32 ∧ 1 ≤ c.numInst

/-- R29, U1 (DESIGN CHOICE, safe: log entry 2): what `words[i]` of instance `d` holds after the `n`-th reset, with
arguments `n d i`. The spec gives no value, and nothing constrains this one. -/
opaque Config.freeWord (v : Variant) : Nat → Nat → Nat → Word v

/-- R29, U4 (DESIGN CHOICE, safe: log entry 3): what `key[j]` of instance `d` holds after the `n`-th reset, with
arguments `n d j`. The spec gives no value, and nothing constrains this one. -/
opaque Config.freeKey (v : Variant) : Nat → Nat → Nat → Word v

end Sys2Proof
end

