-- ==== Sys2Proof/Machine/Constants.lean ====
section
/-! DEFINITION. The constants of the two variants: the table of spec/00_scope.md R2, one definition per row. -/

namespace Sys2Proof

/-- R2: `N`, the number of state words. -/
def Variant.N : Variant → Nat
  | .mt32 => 624
  | .mt64 => 312

/-- R2: `M`, the recurrence depth. -/
def Variant.M : Variant → Nat
  | .mt32 => 397
  | .mt64 => 156

/-- R2: `INIT_MULT`, the scalar-seed multiplier. -/
def Variant.initMult : (v : Variant) → Word v
  | .mt32 => 1812433253#32
  | .mt64 => 6364136223846793005#64

/-- R2: `INIT_SHIFT`, the seeding right-shift amount. -/
def Variant.initShift : Variant → Nat
  | .mt32 => 30
  | .mt64 => 62

/-- R2: `KEY_BASE_SEED`, the scalar seed of phase 1 of array seeding. -/
def Variant.keyBaseSeed (v : Variant) : Word v := BitVec.ofNat v.W 19650218

/-- R2: `KEY_MULT1`, the first mixing-pass multiplier. -/
def Variant.keyMult1 : (v : Variant) → Word v
  | .mt32 => 1664525#32
  | .mt64 => 3935559000370003845#64

/-- R2: `KEY_MULT2`, the second mixing-pass multiplier. -/
def Variant.keyMult2 : (v : Variant) → Word v
  | .mt32 => 1566083941#32
  | .mt64 => 2862933555777941757#64

/-- R2: `UPPER_MASK`. For MT64 bits 63 down to 31, against the source's text (spec/90_conflicts.md C2; log entry 15). -/
def Variant.upperMask : (v : Variant) → Word v
  | .mt32 => 0x80000000#32
  | .mt64 => 0xFFFFFFFF80000000#64

/-- R2: `LOWER_MASK`, bits 30 down to 0 in both variants. -/
def Variant.lowerMask : (v : Variant) → Word v
  | .mt32 => 0x7FFFFFFF#32
  | .mt64 => 0x000000007FFFFFFF#64

/-- R2: `MATRIX`, the twist constant. -/
def Variant.matrix : (v : Variant) → Word v
  | .mt32 => 0x9908B0DF#32
  | .mt64 => 0xB5026F5AA96619E9#64

/-- R2: `TOP_BIT`, `2^(W-1)`. -/
def Variant.topBit : (v : Variant) → Word v
  | .mt32 => 0x80000000#32
  | .mt64 => 0x8000000000000000#64

/-- R2: `DEFAULT_SEED`, the seed of a default engine (used by the pseudo-instruction SEEDD, R71). -/
def defaultSeed : Nat := 5489

end Sys2Proof
end

