-- ==== Sys2Proof/Machine/Engine.lean ====
section
/-! DEFINITION. The data types of an engine and of what passes over its command port (spec/10_state.md R20,
spec/30_encoding.md R60 to R62, spec/60_exceptions.md R131). -/

namespace Sys2Proof.Machine

/-- R20: one engine: exactly four state elements. `words` has `N` entries and `key` has `KEY_MAX` (`Engine.Ok`). -/
structure Engine (v : Variant) where
  words  : List (Word v)   -- R21: the state array
  cursor : Nat             -- R22: 0 to N+1, where N+1 is the sentinel "never seeded" (log entry 13)
  key    : List (Word v)   -- R25: the key staging buffer; the valid entries are those below `keyLen`
  keyLen : Nat             -- R25: 0 to KEY_MAX
deriving DecidableEq, Repr

/-- R27: one instance: its `VARIANT` and its own copy of the four state elements. -/
structure Inst where
  variant : Variant
  eng     : Engine variant
deriving DecidableEq, Repr

/-- R131: the errors a command can raise. -/
inductive Error where
  | invalidSeed
  | notSeeded
  | illegalCommand
  | keyOverflow
  | badOperand
deriving DecidableEq, Repr

/-- R131: the status of a response. Codes 6 to 15 are never returned. -/
inductive Status where
  | ok
  | error (e : Error)
deriving DecidableEq, Repr

/-- R62: one response of a command port: the instance that returned it, its status and its `W`-bit data. -/
structure Response where
  port    : Nat
  variant : Variant
  status  : Status
  data    : Word variant
deriving DecidableEq, Repr

/-- What the host does to the system: the two inputs of R60. -/
inductive Input where
  /-- Present a command word, written as one number (R61), on the command port of instance `port`. -/
  | command (port : Nat) (word : Nat)
  /-- R160, R167: assert `rst`, while the given command (port and word) is being executed, if one is. -/
  | rst (inFlight : Option (Nat × Nat))
deriving DecidableEq, Repr

end Sys2Proof.Machine
end

