-- ==== Sys2Proof/Machine/Reset.lean ====
section
/-! DEFINITION. The reset values of an engine (spec/10_state.md R29, spec/70_reset_and_hazards.md R160). -/

namespace Sys2Proof.Machine

/-- R29: instance `d` after the `n`-th reset: unseeded, its key empty, the entries of both arrays without a value the
spec gives (free values: log entries 2, 3 and 4). -/
def Engine.reset (v : Variant) (keyMax n d : Nat) : Engine v where
  words  := (List.range v.N).map (Config.freeWord v n d)
  cursor := v.N + 1
  key    := (List.range keyMax).map (Config.freeKey v n d)
  keyLen := 0

/-- R160: every instance of a list at its reset values, the first one numbered `d`. -/
def resetInsts (keyMax n : Nat) : (d : Nat) → List Variant → List Inst
  | _, [] => []
  | d, v :: vs => ⟨v, Engine.reset v keyMax n d⟩ :: resetInsts keyMax n (d + 1) vs

end Sys2Proof.Machine
end

