-- ==== Sys2Proof/Machine/State.lean ====
section
/-! DEFINITION. The state of a system of engines, why a step can stop, and the state after reset
(spec/10_state.md R20, R27, R29, spec/30_encoding.md R60). -/

namespace Sys2Proof.Machine

/-- The whole system. `inst` is the spec's state (R20, R27); `keyMax`, like the variants inside `inst` and the length
of `inst`, is a build parameter that no step changes (R5, log entry 1); the rest holds what passes over the command
ports and the reset input (R60). -/
structure State where
  keyMax    : Nat             -- R5: KEY_MAX
  inst      : List Inst       -- R27: the instances 0 to NUM_INST-1
  target    : Nat             -- R60, R121: the instance whose port received the command being executed (log entry 5)
  inputs    : List Input      -- R60: what the host will do, first one first (log entry 6)
  responses : List Response   -- R60, R70: the responses returned so far, oldest first (log entry 7)
  resets    : Nat             -- the number of resets so far, which picks the free values (log entry 4)
deriving DecidableEq, Repr

/-- R5: `NUM_INST`. -/
def State.numInst (s : State) : Nat := s.inst.length

/-- R5: the build parameters of the system. -/
def State.config (s : State) : Config := ⟨s.keyMax, s.inst.map Inst.variant⟩

/-- Why the machine stops with a fault. The spec's block never does (spec/93_implementation_defined.md, Part A): both
are inputs that no host can present, and both are safe. A refused command of the spec (R130) is no fault: it ends in
a next state with its status in the response. -/
inductive Fault where
  /-- Raised by a command sent to the port of an instance that does not exist. Safe (log entry 9). -/
  | noSuchPort
  /-- Raised by the port when it is presented a number of more than `8 + W` bits. Safe (log entry 10). -/
  | wordTooWide
deriving DecidableEq, Repr

/-- Why the model refuses an instruction. -/
inductive Refusal where
  /-- Raised by `exec` alone, for an instruction without a meaning. Safe. No arm raises it. -/
  | notModelled (mnemonic : String)
deriving DecidableEq, Repr

/-- What a step of this machine answers. -/
abbrev Out := Host.Outcome State Fault Refusal

/-- R29, R160: a system with the given build parameters right after reset, with nothing sent and nothing answered. -/
def State.ofConfig (c : Config) : State where
  keyMax    := c.keyMax
  inst      := resetInsts c.keyMax 0 0 c.variants
  target    := 0
  inputs    := []
  responses := []
  resets    := 0

/-- The parameters of the one system `State.reset` is (DESIGN CHOICE, unsafe: log entry 1): `KEY_MAX` = 1024 and four
instances, two of each variant. -/
def resetConfig : Config := ⟨1024, [.mt32, .mt32, .mt64, .mt64]⟩

/-- R29, R160: the machine right after reset. -/
def State.reset : State := State.ofConfig resetConfig

end Sys2Proof.Machine
end

