-- ==== Sys2Proof/Machine/Operands.lean ====
section
/-! DEFINITION. The operand forms of the commands (spec/30_encoding.md R64) and the index forms of the two arrays
(spec/20_memory.md R41). -/

namespace Sys2Proof.Machine

/-- R64: the operand of SEED and KPUSH: the `W`-bit word, used as it is. An operand of `2^W` or more, which no command
word gives, is taken modulo `2^W` (DESIGN CHOICE, safe: log entry 12). -/
def operandWord (v : Variant) (arg : Nat) : Word v := BitVec.ofNat v.W arg

/-- R64, R121: the operand of CLONE: the instance it names, if `arg < NUM_INST`. An operand of `2^W` or more, which no
command word gives, is used as it is, not modulo `2^W` (DESIGN CHOICE, safe: log entry 12). -/
def operandInst (s : State) (arg : Nat) : Option Inst := s.inst[arg]?

/-- R6: a loop index zero-extended to a word. -/
def indexWord (v : Variant) (i : Nat) : Word v := BitVec.ofNat v.W i

/-- R8: the read `words[i]` or `key[i]`. Every index a rule uses is inside the array (R41); past its end, which no
reachable state reads, the answer is 0 (log entry 13). -/
def readWord {v : Variant} (ws : List (Word v)) (i : Nat) : Word v := ws.getD i 0

/-- R8: the write `words[i] <- x` or `key[i] <- x`: all `W` bits of one cell (R42). -/
def writeWord {v : Variant} (ws : List (Word v)) (i : Nat) (x : Word v) : List (Word v) := ws.set i x

/-- R41: `(k+1) mod N`. -/
def succIndex (v : Variant) (k : Nat) : Nat := (k + 1) % v.N

/-- R41: `(k+M) mod N`. -/
def farIndex (v : Variant) (k : Nat) : Nat := (k + v.M) % v.N

end Sys2Proof.Machine
end

