-- ==== Sys2Proof/Machine/Flags.lean ====
section
/-! DEFINITION. The conditions commands test. The block has no flags and no condition codes (spec/10_state.md R26):
each of these is a function of the four state elements. -/

namespace Sys2Proof.Machine

/-- R23: seeded since the last reset. -/
def Engine.seeded {v : Variant} (e : Engine v) : Bool := e.cursor != v.N + 1

/-- R22, R101: the block is used up, so that the next extraction twists first. -/
def Engine.twistDue {v : Variant} (e : Engine v) : Bool := e.cursor == v.N

/-- R132: the key buffer is empty. -/
def Engine.keyEmpty {v : Variant} (e : Engine v) : Bool := e.keyLen == 0

/-- R135: the key buffer is full. -/
def Engine.keyFull {v : Variant} (keyMax : Nat) (e : Engine v) : Bool := e.keyLen == keyMax

end Sys2Proof.Machine
end

