-- ==== Sys2Proof/Machine/Ops.lean ====
section
/-! DEFINITION. The shared operations: the seeders (spec/40_seeding.md R80, R84), the twist and the tempering
(spec/41_generation.md R100 to R104), extraction, and the response of a command, refused or not
(spec/60_exceptions.md R130, R131). -/

namespace Sys2Proof.Machine

/-! ## Seeders -/

/-- R80, R84: `x XOR (x >> INIT_SHIFT)`. -/
def foldShift {v : Variant} (x : Word v) : Word v := x ^^^ (x >>> v.initShift)

/-- R80: the word at index `i` from the word before it. -/
def scalarStep {v : Variant} (i : Nat) (before : Word v) : Word v :=
  v.initMult * foldShift before + indexWord v i

/-- R80: the `n` words at indices `i`, `i+1`, ..., the word before them being `before`. -/
def scalarTail {v : Variant} : (n i : Nat) → (before : Word v) → List (Word v)
  | 0, _, _ => []
  | n + 1, i, before => scalarStep i before :: scalarTail n (i + 1) (scalarStep i before)

/-- R80: `ScalarInit(seed)`. -/
def scalarInit {v : Variant} (seed : Word v) : List (Word v) := seed :: scalarTail (v.N - 1) 1 seed

/-- R84: the local variables of `ArrayInit`. -/
structure Mix (v : Variant) where
  t : List (Word v)
  i : Nat
  j : Nat
deriving DecidableEq, Repr

/-- R84: `i <- i + 1; if i == N: { t[0] <- t[N-1]; i <- 1 }`. -/
def Mix.advanceI {v : Variant} (m : Mix v) : Mix v :=
  if m.i + 1 = v.N then { m with t := writeWord m.t 0 (readWord m.t (v.N - 1)), i := 1 }
  else { m with i := m.i + 1 }

/-- R84: `j <- j + 1; if j == L: { j <- 0 }`. -/
def Mix.advanceJ {v : Variant} (len : Nat) (m : Mix v) : Mix v :=
  { m with j := if m.j + 1 = len then 0 else m.j + 1 }

/-- R84: the value one mixing update starts from: `t[i] XOR ((t[i-1] XOR (t[i-1] >> INIT_SHIFT)) * f)`. -/
def Mix.mixed {v : Variant} (f : Word v) (m : Mix v) : Word v :=
  readWord m.t m.i ^^^ (foldShift (readWord m.t (m.i - 1)) * f)

/-- R84, phase 2: one iteration of the first mixing pass over the key `key`. -/
def Mix.pass1 {v : Variant} (key : List (Word v)) (m : Mix v) : Mix v :=
  Mix.advanceJ key.length
    (Mix.advanceI { m with t := writeWord m.t m.i (m.mixed v.keyMult1 + readWord key m.j + indexWord v m.j) })

/-- R84, phase 3: one iteration of the second mixing pass. -/
def Mix.pass2 {v : Variant} (m : Mix v) : Mix v :=
  Mix.advanceI { m with t := writeWord m.t m.i (m.mixed v.keyMult2 - indexWord v m.i) }

/-- `f` applied `n` times, the first time to `x`: the `repeat n times` of R84. -/
def repeatTimes {α : Type} (f : α → α) : Nat → α → α
  | 0, x => x
  | n + 1, x => repeatTimes f n (f x)

/-- R84: `ArrayInit(key)`, for a key of at least one word (R85 refuses an empty one first). `i` starts at 1, `j` at 0,
and `i` runs on from phase 2 to phase 3; phase 4 assigns the whole of word 0. -/
def arrayInit {v : Variant} (key : List (Word v)) : List (Word v) :=
  let m1 : Mix v := ⟨scalarInit v.keyBaseSeed, 1, 0⟩
  let m2 := repeatTimes (Mix.pass1 key) (max v.N key.length) m1
  let m3 := repeatTimes Mix.pass2 (v.N - 1) m2
  writeWord m3.t 0 v.topBit

/-! ## Twist and tempering -/

/-- R100: `TwistElem(a, b)`. -/
def twistElem {v : Variant} (a b : Word v) : Word v :=
  let y := (a &&& v.upperMask) ||| (b &&& v.lowerMask)
  if y.getLsbD 0 then (y >>> 1) ^^^ v.matrix else y >>> 1

/-- R101: the body of the twist's loop at index `k`, in place. -/
def twistAt {v : Variant} (ws : List (Word v)) (k : Nat) : List (Word v) :=
  writeWord ws k (readWord ws (farIndex v k) ^^^ twistElem (readWord ws k) (readWord ws (succIndex v k)))

/-- R101: the new `words` of `TWIST`: every index once, in increasing order, in place. -/
def twist {v : Variant} (ws : List (Word v)) : List (Word v) := (List.range v.N).foldl twistAt ws

/-- R101: `TWIST`. -/
def Engine.twist {v : Variant} (e : Engine v) : Engine v :=
  { e with words := Sys2Proof.Machine.twist e.words, cursor := 0 }

/-- R103: `TEMPER` for MT32. -/
def temper32 (x : Word .mt32) : Word .mt32 :=
  let y1 := x ^^^ (x >>> 11)
  let y2 := y1 ^^^ ((y1 <<< 7) &&& 0x9D2C5680#32)
  let y3 := y2 ^^^ ((y2 <<< 15) &&& 0xEFC60000#32)
  y3 ^^^ (y3 >>> 18)

/-- R104: `TEMPER` for MT64. -/
def temper64 (x : Word .mt64) : Word .mt64 :=
  let y1 := x ^^^ ((x >>> 29) &&& 0x5555555555555555#64)
  let y2 := y1 ^^^ ((y1 <<< 17) &&& 0x71D67FFFEDA60000#64)
  let y3 := y2 ^^^ ((y2 <<< 37) &&& 0xFFF7EEE000000000#64)
  y3 ^^^ (y3 >>> 43)

/-- R105: `TEMPER`, by `VARIANT`. -/
def temper : {v : Variant} → Word v → Word v
  | .mt32, x => temper32 x
  | .mt64, x => temper64 x

/-- R106: `zext(trunc_32(x))`: the low 32 bits of a word. -/
def low32 {v : Variant} (x : Word v) : Word v := (x.setWidth 32).setWidth v.W

/-- R105: the engine an extraction reads from: twisted first when the block is used up. -/
def Engine.ready {v : Variant} (e : Engine v) : Engine v := if e.twistDue then e.twist else e

/-- R105: one extraction: refused when unseeded; otherwise twist if due, temper the word at the cursor, advance. -/
def Engine.extract {v : Variant} (e : Engine v) : Except Error (Engine v × Word v) :=
  if e.seeded then
    .ok ({ e.ready with cursor := e.ready.cursor + 1 }, temper (readWord e.ready.words e.ready.cursor))
  else .error .notSeeded

/-! ## Responses -/

/-- R131: the 4-bit code of a status. -/
def Status.code : Status → BitVec 4
  | .ok => 0
  | .error .invalidSeed => 1
  | .error .notSeeded => 2
  | .error .illegalCommand => 3
  | .error .keyOverflow => 4
  | .error .badOperand => 5

/-- R62: the bits of a response: the status above, the data below. -/
def Response.word (r : Response) : ResponseWord r.variant := r.status.code ++ r.data

/-- R60, R62: a response returned on the port of the command being executed. -/
def State.respond (s : State) (v : Variant) (status : Status) (data : Word v) : State :=
  { s with responses := s.responses ++ [⟨s.target, v, status, data⟩] }

/-- R130: the refusal of a command: its code with zero data, and nothing else. -/
def State.raise (s : State) (v : Variant) (err : Error) : State := s.respond v (.error err) 0

/-- R47: the instance the command was sent to, replaced. -/
def State.setTarget (s : State) (x : Inst) : State := { s with inst := s.inst.set s.target x }

/-- R60, R130: one command on the instance it was sent to: `f` makes all the checks and gives either the error or the
instance's new state with the response data. A refused command changes no state element. -/
def transact (s : State) (f : (v : Variant) → Engine v → Except Error (Engine v × Word v)) : Out :=
  match s.inst[s.target]? with
  | none => .fault .noSuchPort
  | some ⟨v, e⟩ =>
    match f v e with
    | .ok (e', data) => .next ((s.setTarget ⟨v, e'⟩).respond v .ok data)
    | .error err => .next (s.raise v err)

/-! ## Reset -/

/-- R160, R167: the reset event: every instance at its reset values, whatever command was in progress; no response is
returned. What the host has been answered before stays answered. -/
def resetEvent (s : State) : Out :=
  .next { s with
    inst := resetInsts s.keyMax (s.resets + 1) 0 (s.inst.map Inst.variant)
    resets := s.resets + 1 }

end Sys2Proof.Machine
end

