-- ==== Sys2Proof/Machine/Generation.lean ====
section
/-! DEFINITION. The extraction commands NEXT and NEXT32 (spec/41_generation.md). -/

namespace Sys2Proof.Machine

/-- R105: `NEXT`. -/
def execNext (s : State) : Out := transact s fun _ e => e.extract

/-- R106: the engine effect of NEXT32: on MT64 an extraction whose data is narrowed; on MT32 an illegal command,
before any other check (R139). -/
def Engine.next32 : {v : Variant} → Engine v → Except Error (Engine v × Word v)
  | .mt32, _ => .error .illegalCommand
  | .mt64, e => e.extract.map fun r => (r.1, low32 r.2)

/-- R106: `NEXT32`. -/
def execNext32 (s : State) : Out := transact s fun _ e => e.next32

end Sys2Proof.Machine
end

