-- ==== Sys2Proof/Machine/Seeding.lean ====
section
/-! DEFINITION. The seeding commands SEED, KCLR, KPUSH, SEEDK (spec/40_seeding.md). -/

namespace Sys2Proof.Machine

/-- R81: the engine effect of SEED. -/
def Engine.seed {v : Variant} (arg : Nat) (e : Engine v) : Except Error (Engine v × Word v) :=
  .ok ({ e with words := scalarInit (operandWord v arg), cursor := v.N }, 0)

/-- R81: `SEED arg`. -/
def execSeed (arg : Nat) (s : State) : Out := transact s fun _ e => e.seed arg

/-- R82: the engine effect of KCLR: the entries keep their bits. -/
def Engine.kclr {v : Variant} (e : Engine v) : Except Error (Engine v × Word v) :=
  .ok ({ e with keyLen := 0 }, 0)

/-- R82: `KCLR`. -/
def execKclr (s : State) : Out := transact s fun _ e => e.kclr

/-- R83: the engine effect of KPUSH. -/
def Engine.kpush {v : Variant} (keyMax arg : Nat) (e : Engine v) : Except Error (Engine v × Word v) :=
  if e.keyFull keyMax then .error .keyOverflow
  else .ok ({ e with key := writeWord e.key e.keyLen (operandWord v arg), keyLen := e.keyLen + 1 }, 0)

/-- R83: `KPUSH arg`. -/
def execKpush (arg : Nat) (s : State) : Out := transact s fun _ e => e.kpush s.keyMax arg

/-- R85: the engine effect of SEEDK: the key stays in the buffer. -/
def Engine.seedk {v : Variant} (e : Engine v) : Except Error (Engine v × Word v) :=
  if e.keyEmpty then .error .invalidSeed
  else .ok ({ e with words := arrayInit (e.key.take e.keyLen), cursor := v.N }, 0)

/-- R85: `SEEDK`. -/
def execSeedk (s : State) : Out := transact s fun _ e => e.seedk

end Sys2Proof.Machine
end

