-- ==== Sys2Proof/Machine/System.lean ====
section
/-! DEFINITION. The system commands RDCUR and CLONE (spec/42_system.md). -/

namespace Sys2Proof.Machine

/-- R120: the engine effect of RDCUR: none; the data is the cursor, zero-extended. -/
def Engine.rdcur {v : Variant} (e : Engine v) : Except Error (Engine v × Word v) :=
  .ok (e, indexWord v e.cursor)

/-- R120: `RDCUR`. -/
def execRdcur (s : State) : Out := transact s fun _ e => e.rdcur

/-- R121: `words` and `cursor` of `src` copied into `e`; the key buffer of `e` stays. -/
def Engine.copyFrom {v : Variant} (e src : Engine v) : Engine v :=
  { e with words := src.words, cursor := src.cursor }

/-- R121: the engine effect of CLONE, given what its operand names: the three checks in their order, then the copy. -/
def Engine.clone {v : Variant} (src : Option Inst) (e : Engine v) : Except Error (Engine v × Word v) :=
  match src with
  | none => .error .badOperand
  | some x =>
    if h : x.variant = v then
      if x.eng.seeded then .ok (e.copyFrom (h ▸ x.eng), 0) else .error .notSeeded
    else .error .badOperand

/-- R121: `CLONE src`, sent to the instance that is to become the copy. -/
def execClone (src : Nat) (s : State) : Out := transact s fun _ e => e.clone (operandInst s src)

end Sys2Proof.Machine
end

