-- ==== Sys2Proof/Machine/Dispatch.lean ====
section
/-! DEFINITION. The meaning of every command: one arm per constructor of `Instr`. -/

namespace Sys2Proof.Machine

/-- The meaning of a command sent to the port of instance `s.target`. -/
def exec (i : Instr) (s : State) : Host.Outcome State Fault Refusal :=
  match i with
  | .seed arg => Sys2Proof.Machine.execSeed arg s
  | .kclr => Sys2Proof.Machine.execKclr s
  | .kpush arg => Sys2Proof.Machine.execKpush arg s
  | .seedk => Sys2Proof.Machine.execSeedk s
  | .next => Sys2Proof.Machine.execNext s
  | .next32 => Sys2Proof.Machine.execNext32 s
  | .rdcur => Sys2Proof.Machine.execRdcur s
  | .clone src => Sys2Proof.Machine.execClone src s

end Sys2Proof.Machine
end

