-- ==== Sys2Proof/Machine/Port.lean ====
section
/-! DEFINITION. The command port: taking what the host presents, decoding it and executing it
(spec/30_encoding.md R60, R61, R66, spec/70_reset_and_hazards.md R160). -/

namespace Sys2Proof.Machine

/-- R60: a command word presented on the port of instance `d`, as the state in which it is executed. -/
def State.present (s : State) (d : Nat) (rest : List Input) : State := { s with target := d, inputs := rest }

/-- R66: one command word on a port of variant `v`: an illegal word is refused, any other runs its command. -/
def runWord (s : State) (v : Variant) (cw : CommandWord v) : Out :=
  match decode v cw with
  | .command i => exec i s
  | .illegal _ => .next (s.raise v .illegalCommand)

/-- R60, R61: one transaction on the port of the instance `s.target`, which carries `8 + W` bits (log entries 9 and
10 for what no host can present). -/
def transaction (s : State) (word : Nat) : Out :=
  match s.inst[s.target]? with
  | none => .fault .noSuchPort
  | some x =>
    if word < 2 ^ (8 + x.variant.W) then runWord s x.variant (BitVec.ofNat (8 + x.variant.W) word)
    else .fault .wordTooWide

/-- R47, R148: the next thing that happens to the system: the first of the host's inputs, or nothing, when the system
keeps all its state. -/
def takeInput (s : State) : Out :=
  match s.inputs with
  | [] => .next s
  | .command d word :: rest => transaction (s.present d rest) word
  | .rst _ :: rest => resetEvent { s with inputs := rest }

/-- Log entry 11: the number of the first instance of variant `v`, if there is one. -/
def State.firstOf (s : State) (v : Variant) : Option Nat := s.inst.findIdx? fun x => x.variant == v

/-- Log entry 11: the input by which the host sends table-numbered bits: on the port of the first instance of the
variant the word is for, or, where the system has none, the same opcode and operand on the port of instance 0. -/
def State.tableInput (s : State) (nbits w : Nat) : Input :=
  let ⟨v, cw⟩ := tableWord nbits w
  match s.firstOf v with
  | some d => .command d cw.toNat
  | none =>
    let u := (s.inst.head?.map Inst.variant).getD v
    .command 0 (opField v cw ++ (argField v cw).setWidth u.W).toNat

end Sys2Proof.Machine
end

