-- ==== Sys2Proof/Machine/Step.lean ====
section
/-! DEFINITION. One step of the system, and the host's way to place the next command. -/

namespace Sys2Proof.Machine

/-- R47: one step: one atomic transition of the whole system. -/
def step (s : State) : Host.Outcome State Fault Refusal := takeInput s

/-- The state whose very next step runs the command that `nbits` table-numbered bits `w` stand for: that command is
put first among the host's inputs (log entries 6 and 11). -/
def State.withFetchWord (s : State) (nbits w : Nat) : State :=
  { s with inputs := s.tableInput nbits w :: s.inputs }

end Sys2Proof.Machine
end

