-- ==== Sys2Proof/Machine/Assembler.lean ====
section
/-! DEFINITION. Assembler lines, their pseudo-instructions and their command words (spec/30_encoding.md R70, R71).
A host tool, not a part of the block. -/

namespace Sys2Proof.Machine

/-- R70, R71: what one line asks for: a command or a pseudo-instruction. -/
inductive AsmBody where
  | command (i : Instr)
  | seedd
  | seeda (key : List Nat)
deriving DecidableEq, Repr

/-- R70: one line: `[@d] MNEMONIC [operand]`. -/
structure AsmLine where
  port : Nat
  body : AsmBody
deriving DecidableEq, Repr

/-- R71: the commands a line stands for, in order. -/
def AsmBody.expand : AsmBody → List Instr
  | .command i => [i]
  | .seedd => [.seed defaultSeed]
  | .seeda key => .kclr :: key.map Instr.kpush ++ [.seedk]

/-- R70: the inputs a line stands for on a system, refused where an operand is not less than `2^W` of the target, as R70
says. Every mnemonic of R63 is admitted on either variant: NEXT32 for an MT32 port gives the word `0x0600000000`, which
the port answers with `IllegalCommand` (R65, `runWord`). That a line for a port that does not exist is refused, and a
SEEDA line as a whole for one wide operand, is DESIGN CHOICE, safe (log entry 20). -/
def assemble (s : State) (l : AsmLine) : Option (List Input) :=
  match s.inst[l.port]? with
  | none => none
  | some x =>
    if l.body.expand.all (Instr.operandFits x.variant) then
      some (l.body.expand.map fun i => .command l.port (encode x.variant i).toNat)
    else none

/-! ## The text of a line (log entry 17) -/

/-- R70: a decimal digit's value. -/
def decDigit (c : Char) : Option Nat :=
  if 48 ≤ c.toNat ∧ c.toNat ≤ 57 then some (c.toNat - 48) else none

/-- R70: a hexadecimal digit's value. -/
def hexDigit (c : Char) : Option Nat :=
  if 65 ≤ c.toNat ∧ c.toNat ≤ 70 then some (c.toNat - 55)
  else if 97 ≤ c.toNat ∧ c.toNat ≤ 102 then some (c.toNat - 87)
  else decDigit c

/-- The digits of a number in base `b`, most significant first, after the digits that gave `acc`. -/
def parseDigits (b : Nat) (digit : Char → Option Nat) : (acc : Nat) → List Char → Option Nat
  | acc, [] => some acc
  | acc, c :: cs =>
    match digit c with
    | none => none
    | some k => parseDigits b digit (acc * b + k) cs

/-- R70: a number in decimal, or in hexadecimal after `0x`. -/
def parseNumber : List Char → Option Nat
  | [] => none
  | '0' :: 'x' :: c :: cs => parseDigits 16 hexDigit 0 (c :: cs)
  | c :: cs => parseDigits 10 decDigit 0 (c :: cs)

/-- The words of a line up to its comment, `cur` being the word read so far, in reverse: blanks separate words, and a
comma is a word of its own. -/
def tokens : (cur : List Char) → List Char → List (List Char)
  | cur, [] => if cur = [] then [] else [cur.reverse]
  | cur, c :: cs =>
    if c = ';' then (if cur = [] then [] else [cur.reverse])
    else if c = ' ' ∨ c = '\t' then (if cur = [] then tokens [] cs else cur.reverse :: tokens [] cs)
    else if c = ',' then (if cur = [] then [','] :: tokens [] cs else cur.reverse :: [','] :: tokens [] cs)
    else tokens (c :: cur) cs

/-- R71: the operands of SEEDA after the first, each after a comma. -/
def parseRest : List (List Char) → Option (List Nat)
  | [] => some []
  | [','] :: w :: ws =>
    match parseNumber w, parseRest ws with
    | some k, some ks => some (k :: ks)
    | _, _ => none
  | _ => none

/-- R71: the operands of SEEDA. -/
def parseKey : List (List Char) → Option (List Nat)
  | [] => some []
  | w :: ws =>
    match parseNumber w, parseRest ws with
    | some k, some ks => some (k :: ks)
    | _, _ => none

/-- R70: the one operand of a format A command. -/
def parseOperand (f : Nat → Instr) : List (List Char) → Option AsmBody
  | [w] => (parseNumber w).map fun k => .command (f k)
  | _ => none

/-- R70: a format Z command, written without an operand. -/
def parseBare (b : AsmBody) : List (List Char) → Option AsmBody
  | [] => some b
  | _ => none

/-- R63, R70, R71: the mnemonic and what follows it. -/
def parseBody : List (List Char) → Option AsmBody
  | ['S', 'E', 'E', 'D'] :: ws => parseOperand .seed ws
  | ['K', 'C', 'L', 'R'] :: ws => parseBare (.command .kclr) ws
  | ['K', 'P', 'U', 'S', 'H'] :: ws => parseOperand .kpush ws
  | ['S', 'E', 'E', 'D', 'K'] :: ws => parseBare (.command .seedk) ws
  | ['N', 'E', 'X', 'T'] :: ws => parseBare (.command .next) ws
  | ['N', 'E', 'X', 'T', '3', '2'] :: ws => parseBare (.command .next32) ws
  | ['R', 'D', 'C', 'U', 'R'] :: ws => parseBare (.command .rdcur) ws
  | ['C', 'L', 'O', 'N', 'E'] :: ws => parseOperand .clone ws
  | ['S', 'E', 'E', 'D', 'D'] :: ws => parseBare .seedd ws
  | ['S', 'E', 'E', 'D', 'A'] :: ws => (parseKey ws).map .seeda
  | _ => none

/-- R70: one line of text, with `@0` where no port is written. -/
def parseLine (text : List Char) : Option AsmLine :=
  match tokens [] text with
  | ('@' :: d) :: ws =>
    match parseDigits 10 decDigit 0 d, parseBody ws with
    | some port, some body => if d = [] then none else some ⟨port, body⟩
    | _, _ => none
  | ws => (parseBody ws).map fun body => ⟨0, body⟩

end Sys2Proof.Machine
end

