-- ==== Sys2Proof/Machine/ByteView.lean ====
section
/-! DEFINITION. The byte view of a word (spec/20_memory.md R43), and, as information only, the byte fill that software
around the block builds on its outputs (R53; outside the block: spec/00_scope.md R4). No command uses this file. -/

namespace Sys2Proof.Machine

/-- R43: byte `b` of a word: bits `8b+7` down to `8b`. -/
def byteOf {v : Variant} (x : Word v) (b : Nat) : Byte := x.extractLsb' (8 * b) 8

/-- R43: the bytes of a word, least significant byte first. -/
def wordBytes {v : Variant} (x : Word v) : List Byte := (List.range (v.W / 8)).map (byteOf x)

/-- R53: `n` extractions in a row: the engine after them and their words, first one first. What happens when one of
them is refused (an unseeded engine) is DESIGN CHOICE, safe (log entry 19): R53 takes the data of each response and does
not say what a fill does with a refusal, and here the whole draw ends with the error and no words. -/
def Engine.draw {v : Variant} : Nat → Engine v → Except Error (Engine v × List (Word v))
  | 0, e => .ok (e, [])
  | n + 1, e =>
    match e.extract with
    | .error err => .error err
    | .ok (e', x) =>
      match e'.draw n with
      | .error err => .error err
      | .ok (e'', xs) => .ok (e'', x :: xs)

/-- R53: the number of words a buffer of `len` bytes takes: `ceil(len / (W/8))`. -/
def fillWords (v : Variant) (len : Nat) : Nat := (len + v.W / 8 - 1) / (v.W / 8)

/-- R53: a buffer of `len` bytes filled from an engine: each word's bytes in order, the last word truncated. When an
extraction is refused there is no buffer but the error (DESIGN CHOICE, safe: log entry 19). -/
def Engine.fill {v : Variant} (len : Nat) (e : Engine v) : Except Error (Engine v × List Byte) :=
  match e.draw (fillWords v len) with
  | .error err => .error err
  | .ok (e', xs) => .ok (e', (xs.flatMap wordBytes).take len)

end Sys2Proof.Machine
end

