-- ==== Sys2Proof/Safety.lean ====
section
/-! DEFINITION. The invariant of the system, the inputs a host can present, and when two states differ only in cells
that hold no value (spec/10_state.md R21, R24, R25, R29; spec/93_implementation_defined.md U1, U4). -/

namespace Sys2Proof.Machine

/-- R21, R22, R24, R25: the array sizes and the register ranges of one engine. -/
abbrev Engine.Ok {v : Variant} (keyMax : Nat) (e : Engine v) : Prop :=
  e.words.length = v.N ∧ e.cursor ≤ v.N + 1 ∧ e.key.length = keyMax ∧ e.keyLen ≤ keyMax

/-- R62: a response that is not `OK` has zero data. -/
abbrev Response.Ok (r : Response) : Prop := r.status = .ok ∨ r.data = 0

/-- The invariant of the system: legal parameters (R5), every engine in its ranges, every response as R62 says. -/
abbrev State.Inv (s : State) : Prop :=
  s.config.Legal ∧ (∀ x ∈ s.inst, x.eng.Ok s.keyMax) ∧ ∀ r ∈ s.responses, r.Ok

/-- R60, R61: an input a host can present: a command word of the port's width on a port that exists, or a reset. -/
def Input.Legal (s : State) : Input → Prop
  | .command d word => ∃ x, s.inst[d]? = some x ∧ word < 2 ^ (8 + x.variant.W)
  | .rst _ => True

/-- A step is safe when it does not stop the machine. -/
def SafeStep (s : State) : Prop := ∃ t, step s = .next t

/-- R29, U1, U4: two engines that differ only in cells without a value: the whole of `words` while unseeded, and the
entries of `key` at `keyLen` and above. -/
def Engine.Same {v : Variant} (a b : Engine v) : Prop :=
  a.cursor = b.cursor ∧ a.keyLen = b.keyLen ∧ a.key.length = b.key.length ∧
  a.key.take a.keyLen = b.key.take b.keyLen ∧ (a.seeded = true → a.words = b.words)

/-- Two instances of one variant whose engines are the same but for cells without a value. -/
def Inst.Same (x y : Inst) : Prop :=
  ∃ (v : Variant) (a b : Engine v), x = ⟨v, a⟩ ∧ y = ⟨v, b⟩ ∧ a.Same b

/-- Two states that are the same but for cells without a value. -/
def State.Same (s t : State) : Prop :=
  s.keyMax = t.keyMax ∧ List.Forall₂ Inst.Same s.inst t.inst ∧ s.target = t.target ∧ s.inputs = t.inputs ∧
  s.responses = t.responses

end Sys2Proof.Machine
end

