-- ==== Sys2Proof/Certificates/Slice0/Obligations.lean ====
section
/-! DEFINITION. The statements about the model. A hypothesis `s.inst[s.target]? = some ⟨v, e⟩` names the instance the
command was sent to, its variant and its engine. A next state is written out in full, so that what stands in no field
update is unchanged: that is the frame. -/

open Sys2Proof Sys2Proof.Machine

/-! ## Encoding -/

/-- R61, R63: the command words the spec writes out decode to their commands. -/
def Obligations.DocumentedWordsDecode : Prop :=
  decode .mt32 0x0100001571#40 = .command (.seed 5489) ∧
  decode .mt64 0x010000000000001571#72 = .command (.seed 5489) ∧
  decode .mt32 0x0200000000#40 = .command .kclr ∧
  decode .mt32 0x0300000123#40 = .command (.kpush 0x123) ∧
  decode .mt32 0x0400000000#40 = .command .seedk ∧
  decode .mt32 0x05DEADBEEF#40 = .command .next ∧
  decode .mt64 0x060000000000000000#72 = .command .next32 ∧
  decode .mt32 0x0600000000#40 = .illegal .next32OnMt32 ∧
  decode .mt32 0x0700000000#40 = .command .rdcur ∧
  decode .mt32 0x0800000002#40 = .command (.clone 2) ∧
  decode .mt32 0x0000000000#40 = .illegal (.reservedOpcode 0x00) ∧
  decode .mt32 0x09FFFFFFFF#40 = .illegal (.reservedOpcode 0x09)

/-- R63, R65, R66: the decoder on every command word, by its opcode `cw / 2^W` and its operand `cw mod 2^W`. -/
def Obligations.OpcodeMapIsExact : Prop :=
  ∀ (v : Variant) (cw : CommandWord v),
    (cw.toNat / 2 ^ v.W = 0x01 → decode v cw = .command (.seed (cw.toNat % 2 ^ v.W))) ∧
    (cw.toNat / 2 ^ v.W = 0x02 → decode v cw = .command .kclr) ∧
    (cw.toNat / 2 ^ v.W = 0x03 → decode v cw = .command (.kpush (cw.toNat % 2 ^ v.W))) ∧
    (cw.toNat / 2 ^ v.W = 0x04 → decode v cw = .command .seedk) ∧
    (cw.toNat / 2 ^ v.W = 0x05 → decode v cw = .command .next) ∧
    (cw.toNat / 2 ^ v.W = 0x06 → v = .mt32 → decode v cw = .illegal .next32OnMt32) ∧
    (cw.toNat / 2 ^ v.W = 0x06 → v = .mt64 → decode v cw = .command .next32) ∧
    (cw.toNat / 2 ^ v.W = 0x07 → decode v cw = .command .rdcur) ∧
    (cw.toNat / 2 ^ v.W = 0x08 → decode v cw = .command (.clone (cw.toNat % 2 ^ v.W))) ∧
    (cw.toNat / 2 ^ v.W = 0x00 ∨ 0x09 ≤ cw.toNat / 2 ^ v.W →
      decode v cw = .illegal (.reservedOpcode (BitVec.ofNat 8 (cw.toNat / 2 ^ v.W))))

/-- R61: every command of a port, with every operand the port's word admits, decodes from its own word. -/
def Obligations.DecodeOfEncodeIsIdentity : Prop :=
  ∀ (v : Variant) (i : Instr), i.wellFormed v = true → decode v (encode v i) = .command i

/-- R61, R63, R70: what the decoder answers is a command of the port, and its encoding is the word it came from: the
whole word for a command with an operand, the opcode above zero bits for one without. -/
def Obligations.DecodedCommandsAreWellFormed : Prop :=
  ∀ (v : Variant) (cw : CommandWord v) (i : Instr), decode v cw = .command i →
    i.wellFormed v = true ∧
    ((∃ a, i = .seed a ∨ i = .kpush a ∨ i = .clone a) → encode v i = cw) ∧
    (i = .kclr ∨ i = .seedk ∨ i = .next ∨ i = .next32 ∨ i = .rdcur →
      (encode v i).toNat = cw.toNat / 2 ^ v.W * 2 ^ v.W)

/-- R62, R131: the bits of a response, and the code of every status. -/
def Obligations.ResponseWordLayout : Prop :=
  (∀ r : Response, r.word.toNat = r.status.code.toNat * 2 ^ r.variant.W + r.data.toNat) ∧
  Status.ok.code = 0 ∧ (Status.error .invalidSeed).code = 1 ∧ (Status.error .notSeeded).code = 2 ∧
  (Status.error .illegalCommand).code = 3 ∧ (Status.error .keyOverflow).code = 4 ∧
  (Status.error .badOperand).code = 5

/-! ## A step -/

/-- R60, R66: a step whose first input is a command word that decodes to `i` is the meaning of `i`, in the state in
which that input is taken and the port's instance is the target. -/
def Obligations.StepRunsDecodedCommand : Prop :=
  ∀ (s : State) (d word : Nat) (rest : List Input) (v : Variant) (e : Engine v) (i : Instr),
    s.inputs = .command d word :: rest → s.inst[d]? = some ⟨v, e⟩ → word < 2 ^ (8 + v.W) →
    decode v (BitVec.ofNat (8 + v.W) word) = .command i →
    step s = exec i { s with target := d, inputs := rest }

/-- R65, R134: a command word that is no command is answered `IllegalCommand` with zero data, and changes nothing. -/
def Obligations.StepRefusesIllegalWord : Prop :=
  ∀ (s : State) (d word : Nat) (rest : List Input) (v : Variant) (e : Engine v),
    s.inputs = .command d word :: rest → s.inst[d]? = some ⟨v, e⟩ → word < 2 ^ (8 + v.W) →
    (word / 2 ^ v.W = 0 ∨ 9 ≤ word / 2 ^ v.W ∨ word / 2 ^ v.W = 6 ∧ v = .mt32) →
    step s = .next { s with
      target := d, inputs := rest, responses := s.responses ++ [⟨d, v, .error .illegalCommand, 0⟩] }

/-- R148: with nothing to do, the system keeps all its state. -/
def Obligations.IdleStepKeepsState : Prop :=
  ∀ s : State, s.inputs = [] → step s = .next s

/-- R160, R167: a reset, whatever command was in progress: every instance unseeded with an empty key, its variant and
array sizes kept, and no response returned. The values of the array cells are not stated: the spec gives none. -/
def Obligations.ResetUnseedsEveryInstance : Prop :=
  ∀ (s : State) (inFlight : Option (Nat × Nat)) (rest : List Input), s.inputs = .rst inFlight :: rest →
    ∃ t, step s = .next t ∧ t.keyMax = s.keyMax ∧ t.inputs = rest ∧ t.responses = s.responses ∧
      t.inst.length = s.inst.length ∧
      ∀ (d : Nat) (v : Variant) (e : Engine v), s.inst[d]? = some ⟨v, e⟩ →
        ∃ e' : Engine v, t.inst[d]? = some ⟨v, e'⟩ ∧ e'.cursor = v.N + 1 ∧ e'.keyLen = 0 ∧
          e'.words.length = v.N ∧ e'.key.length = s.keyMax

/-- R29: the state after reset, for all build parameters. The array cells hold free values (log entries 2 and 3). -/
def Obligations.ResetStateValues : Prop :=
  (∀ c : Config, (State.ofConfig c).config = c ∧
    ∀ (d : Nat) (v : Variant), c.variants[d]? = some v →
      ∃ e : Engine v, (State.ofConfig c).inst[d]? = some ⟨v, e⟩ ∧ e.cursor = v.N + 1 ∧ e.keyLen = 0 ∧
        e.words.length = v.N ∧ e.key.length = c.keyMax) ∧
  State.reset = State.ofConfig resetConfig

/-! ## Seeding -/

/-- R81: SEED: its words, and its effect in every state with every `W`-bit operand. -/
def Obligations.SeedResult : Prop :=
  (∀ (v : Variant) (arg : Word v), decode v (0x01#8 ++ arg) = .command (.seed arg.toNat)) ∧
  ∀ (s : State) (v : Variant) (e : Engine v) (arg : Word v), s.inst[s.target]? = some ⟨v, e⟩ →
    exec (.seed arg.toNat) s = .next { s with
      inst := s.inst.set s.target ⟨v, { e with words := scalarInit arg, cursor := v.N }⟩
      responses := s.responses ++ [⟨s.target, v, .ok, 0⟩] }

/-- R80: `ScalarInit`: `N` words, the first the seed, each later one from the one before it. -/
def Obligations.ScalarInitRecurrence : Prop :=
  ∀ (v : Variant) (seed : Word v),
    (scalarInit seed).length = v.N ∧ (scalarInit seed)[0]? = some seed ∧
    ∀ (i : Nat) (x : Word v), i + 1 < v.N → (scalarInit seed)[i]? = some x →
      (scalarInit seed)[i + 1]? =
        some (v.initMult * (x ^^^ (x >>> v.initShift)) + BitVec.ofNat v.W (i + 1))

/-- R82: KCLR: its words, and its effect in every state. -/
def Obligations.KclrResult : Prop :=
  (∀ (v : Variant) (arg : Word v), decode v (0x02#8 ++ arg) = .command .kclr) ∧
  ∀ (s : State) (v : Variant) (e : Engine v), s.inst[s.target]? = some ⟨v, e⟩ →
    exec .kclr s = .next { s with
      inst := s.inst.set s.target ⟨v, { e with keyLen := 0 }⟩
      responses := s.responses ++ [⟨s.target, v, .ok, 0⟩] }

/-- R83, R135: KPUSH, with every `W`-bit operand: its words; with room it writes one entry and counts it; on a full buffer it is refused and writes
nothing. -/
def Obligations.KpushResult : Prop :=
  (∀ (v : Variant) (arg : Word v), decode v (0x03#8 ++ arg) = .command (.kpush arg.toNat)) ∧
  ∀ (s : State) (v : Variant) (e : Engine v) (arg : Word v), s.inst[s.target]? = some ⟨v, e⟩ →
    (e.keyLen ≠ s.keyMax →
      exec (.kpush arg.toNat) s = .next { s with
        inst := s.inst.set s.target
          ⟨v, { e with key := e.key.set e.keyLen arg, keyLen := e.keyLen + 1 }⟩
        responses := s.responses ++ [⟨s.target, v, .ok, 0⟩] }) ∧
    (e.keyLen = s.keyMax →
      exec (.kpush arg.toNat) s = .next { s with
        responses := s.responses ++ [⟨s.target, v, .error .keyOverflow, 0⟩] })

/-- R85, R132: SEEDK: its words; with a key it seeds from the valid entries; with none it is refused before anything. -/
def Obligations.SeedkResult : Prop :=
  (∀ (v : Variant) (arg : Word v), decode v (0x04#8 ++ arg) = .command .seedk) ∧
  ∀ (s : State) (v : Variant) (e : Engine v), s.inst[s.target]? = some ⟨v, e⟩ →
    (e.keyLen ≠ 0 →
      exec .seedk s = .next { s with
        inst := s.inst.set s.target ⟨v, { e with words := arrayInit (e.key.take e.keyLen), cursor := v.N }⟩
        responses := s.responses ++ [⟨s.target, v, .ok, 0⟩] }) ∧
    (e.keyLen = 0 →
      exec .seedk s = .next { s with
        responses := s.responses ++ [⟨s.target, v, .error .invalidSeed, 0⟩] })

/-- The model's choice (log entry 12), no rule of the spec: an operand of SEED or KPUSH that does not fit the port's
word, which no command word gives, acts as its value modulo `2^W`. -/
def Obligations.WideOperandsActModuloWord : Prop :=
  ∀ (s : State) (v : Variant) (e : Engine v) (arg : Nat), s.inst[s.target]? = some ⟨v, e⟩ →
    exec (.seed arg) s = exec (.seed (arg % 2 ^ v.W)) s ∧ exec (.kpush arg) s = exec (.kpush (arg % 2 ^ v.W)) s

/-- R84: `ArrayInit` as one sequence of written words `u 1, u 2, ...`, with no array: write `r` goes to index
`((r-1) mod (N-1)) + 1`, starts from the word last written there (or from the base array), takes the write before it as
its predecessor, and uses key word `(r-1) mod L`. The last `N-1` writes are the result above word 0, which is the top
bit alone. -/
def Obligations.ArrayInitIsMixingRecurrence : Prop :=
  ∀ (v : Variant) (key : List (Word v)) (u : Nat → Word v), key ≠ [] →
    some (u 0) = (scalarInit v.keyBaseSeed)[0]? →
    (∀ (r : Nat) (old k : Word v), 1 ≤ r → r ≤ max v.N key.length →
      (if r < v.N then (scalarInit v.keyBaseSeed)[r]? else some (u (r - (v.N - 1)))) = some old →
      key[(r - 1) % key.length]? = some k →
      u r = (old ^^^ ((u (r - 1) ^^^ (u (r - 1) >>> v.initShift)) * v.keyMult1)) + k
        + BitVec.ofNat v.W ((r - 1) % key.length)) →
    (∀ r : Nat, max v.N key.length < r → r ≤ max v.N key.length + (v.N - 1) →
      u r = (u (r - (v.N - 1)) ^^^ ((u (r - 1) ^^^ (u (r - 1) >>> v.initShift)) * v.keyMult2))
        - BitVec.ofNat v.W ((r - 1) % (v.N - 1) + 1)) →
    (arrayInit key).length = v.N ∧ (arrayInit key)[0]? = some (BitVec.ofNat v.W (2 ^ (v.W - 1))) ∧
    ∀ r : Nat, max v.N key.length < r → r ≤ max v.N key.length + (v.N - 1) →
      (arrayInit key)[(r - 1) % (v.N - 1) + 1]? = some (u r)

/-- R71, R83, R85: the commands of `SEEDA k0, ..., k(L-1)` sent to one instance, for a key that fits: all answered
`OK`, the instance seeded from exactly that key, the key in the first cells of the buffer and the cells above as before;
every other instance as before. -/
def Obligations.SeedaSeedsFromItsKey : Prop :=
  ∀ (s : State) (d : Nat) (v : Variant) (e : Engine v) (key : List (Word v)) (rest : List Input),
    s.inst[d]? = some ⟨v, e⟩ → e.key.length = s.keyMax → key ≠ [] → key.length ≤ s.keyMax →
    s.inputs = (AsmBody.seeda (key.map BitVec.toNat)).expand.map (fun i => .command d (encode v i).toNat) ++ rest →
    ∃ e' : Engine v,
      Host.Core.run Sys2Proof.core (key.length + 2) s = .next { s with
        target := d, inputs := rest, inst := s.inst.set d ⟨v, e'⟩
        responses := s.responses ++ List.replicate (key.length + 2) ⟨d, v, .ok, 0⟩ } ∧
      e'.words = arrayInit key ∧ e'.cursor = v.N ∧ e'.keyLen = key.length ∧ e'.key = key ++ e.key.drop key.length

/-- R71, R132: `SEEDA` with no operands: its SEEDK is refused with `InvalidSeed`, and the generator keeps its state. -/
def Obligations.SeedaWithoutKeyIsRefused : Prop :=
  ∀ (s : State) (d : Nat) (v : Variant) (e : Engine v) (rest : List Input), s.inst[d]? = some ⟨v, e⟩ →
    s.inputs = (AsmBody.seeda []).expand.map (fun i => .command d (encode v i).toNat) ++ rest →
    Host.Core.run Sys2Proof.core 2 s = .next { s with
      target := d, inputs := rest, inst := s.inst.set d ⟨v, { e with keyLen := 0 }⟩
      responses := s.responses ++ [⟨d, v, .ok, 0⟩, ⟨d, v, .error .invalidSeed, 0⟩] }

/-- R87: after SEED, or SEEDK with the same key, two instances of one variant have the same `words` and `cursor`,
whatever they had before. -/
def Obligations.SeedingDiscardsPriorState : Prop :=
  ∀ (i : Instr) (s s' t t' : State) (v : Variant) (a b : Engine v),
    ((∃ arg, i = .seed arg) ∨
      (i = .seedk ∧ a.keyLen ≠ 0 ∧ a.keyLen = b.keyLen ∧ a.key.take a.keyLen = b.key.take b.keyLen)) →
    s.inst[s.target]? = some ⟨v, a⟩ → t.inst[t.target]? = some ⟨v, b⟩ →
    exec i s = .next s' → exec i t = .next t' →
    ∃ a' b' : Engine v, s'.inst[s.target]? = some ⟨v, a'⟩ ∧ t'.inst[t.target]? = some ⟨v, b'⟩ ∧
      a'.words = b'.words ∧ a'.cursor = b'.cursor

/-- R86: of word 0 of the array a twist starts from, bits 30 to 0 do not reach the twisted array. -/
def Obligations.LowBitsOfSeededWordZeroUnused : Prop :=
  ∀ (v : Variant) (ws : List (Word v)) (x y : Word v), ws.length = v.N → ws[0]? = some x →
    (∀ j, 31 ≤ j → x.getLsbD j = y.getLsbD j) →
    twist (ws.set 0 y) = twist ws

/-! ## Twist, tempering, extraction -/

/-- R100: every bit of `TwistElem(a, b)`: the bits of `a` from 31 up and of `b` below 31, shifted right by one, with
`MATRIX` added when `b` is odd. -/
def Obligations.TwistElemBits : Prop :=
  ∀ (v : Variant) (a b : Word v) (j : Nat), j < v.W →
    (twistElem a b).getLsbD j =
      ((if 31 ≤ j + 1 then a.getLsbD (j + 1) else b.getLsbD (j + 1)) ^^ (b.getLsbD 0 && v.matrix.getLsbD j))

/-- R102: the twist without in-place update: each new word from old words, except in the three places where the pass
has already been. -/
def Obligations.TwistOrderFree : Prop :=
  ∀ (v : Variant) (old : List (Word v)), old.length = v.N →
    (twist old).length = v.N ∧
    ∀ k, k < v.N →
      (k < v.N - v.M →
        readWord (twist old) k
          = readWord old (k + v.M) ^^^ twistElem (readWord old k) (readWord old (k + 1))) ∧
      (v.N - v.M ≤ k → k < v.N - 1 →
        readWord (twist old) k
          = readWord (twist old) (k + v.M - v.N) ^^^ twistElem (readWord old k) (readWord old (k + 1))) ∧
      (k = v.N - 1 →
        readWord (twist old) k
          = readWord (twist old) (v.M - 1) ^^^ twistElem (readWord old k) (readWord (twist old) 0))

/-- R103, R104: tempering as arithmetic on numbers: a right shift divides, a left shift multiplies and drops what
passes bit `W-1`. -/
def Obligations.TemperAsArithmetic : Prop :=
  (∀ x : Word .mt32,
    let y1 := x.toNat ^^^ x.toNat / 2 ^ 11
    let y2 := y1 ^^^ (y1 * 2 ^ 7 % 2 ^ 32 &&& 0x9D2C5680)
    let y3 := y2 ^^^ (y2 * 2 ^ 15 % 2 ^ 32 &&& 0xEFC60000)
    (temper x).toNat = y3 ^^^ y3 / 2 ^ 18) ∧
  (∀ x : Word .mt64,
    let y1 := x.toNat ^^^ (x.toNat / 2 ^ 29 &&& 0x5555555555555555)
    let y2 := y1 ^^^ (y1 * 2 ^ 17 % 2 ^ 64 &&& 0x71D67FFFEDA60000)
    let y3 := y2 ^^^ (y2 * 2 ^ 37 % 2 ^ 64 &&& 0xFFF7EEE000000000)
    (temper x).toNat = y3 ^^^ y3 / 2 ^ 43)

/-- R105, R133: NEXT: its words, whatever the ignored operand; inside a block, at the end of one, and on an unseeded instance. -/
def Obligations.NextResult : Prop :=
  (∀ (v : Variant) (arg : Word v), decode v (0x05#8 ++ arg) = .command .next) ∧
  ∀ (s : State) (v : Variant) (e : Engine v), s.inst[s.target]? = some ⟨v, e⟩ →
    (e.cursor < v.N →
      exec .next s = .next { s with
        inst := s.inst.set s.target ⟨v, { e with cursor := e.cursor + 1 }⟩
        responses := s.responses ++ [⟨s.target, v, .ok, temper (readWord e.words e.cursor)⟩] }) ∧
    (e.cursor = v.N →
      exec .next s = .next { s with
        inst := s.inst.set s.target ⟨v, { e with words := twist e.words, cursor := 1 }⟩
        responses := s.responses ++ [⟨s.target, v, .ok, temper (readWord (twist e.words) 0)⟩] }) ∧
    (e.cursor = v.N + 1 →
      exec .next s = .next { s with
        responses := s.responses ++ [⟨s.target, v, .error .notSeeded, 0⟩] })

/-- R106, R133, R139: NEXT32: on MT64 its words, and its effect: as NEXT with the low 32 bits as data; on MT32 an
illegal command at decode, and, seeded or not, an illegal command as an instruction, which changes nothing. -/
def Obligations.Next32Result : Prop :=
  (∀ arg : Word .mt64, decode .mt64 (0x06#8 ++ arg) = .command .next32) ∧
  (∀ arg : Word .mt32, decode .mt32 (0x06#8 ++ arg) = .illegal .next32OnMt32) ∧
  (∀ (s : State) (e : Engine .mt32), s.inst[s.target]? = some ⟨.mt32, e⟩ →
    exec .next32 s = .next { s with
      responses := s.responses ++ [⟨s.target, .mt32, .error .illegalCommand, 0⟩] }) ∧
  ∀ (s : State) (e : Engine .mt64), s.inst[s.target]? = some ⟨.mt64, e⟩ →
    (e.cursor < 312 →
      exec .next32 s = .next { s with
        inst := s.inst.set s.target ⟨.mt64, { e with cursor := e.cursor + 1 }⟩
        responses := s.responses ++
          [⟨s.target, .mt64, .ok, temper (readWord e.words e.cursor) &&& 0xFFFFFFFF#64⟩] }) ∧
    (e.cursor = 312 →
      exec .next32 s = .next { s with
        inst := s.inst.set s.target ⟨.mt64, { e with words := twist e.words, cursor := 1 }⟩
        responses := s.responses ++
          [⟨s.target, .mt64, .ok, temper (readWord (twist e.words) 0) &&& 0xFFFFFFFF#64⟩] }) ∧
    (e.cursor = 313 →
      exec .next32 s = .next { s with
        responses := s.responses ++ [⟨s.target, .mt64, .error .notSeeded, 0⟩] })

/-- R107, R108: any row of `n` extractions after a seeding (NEXT, or NEXT32 where `narrow` says so): extraction number
`k + 1` returns the tempered word `k mod N` of the array twisted `k / N + 1` times, and at the end the array is twisted
`ceil(n / N)` times and the cursor is `((n-1) mod N) + 1`. -/
def Obligations.ExtractionSequence : Prop :=
  ∀ (s : State) (d : Nat) (v : Variant) (e : Engine v) (narrow : List Bool) (rest : List Input),
    s.inst[d]? = some ⟨v, e⟩ → e.cursor = v.N → narrow ≠ [] →
    (v = .mt32 → ∀ b ∈ narrow, b = false) →
    s.inputs =
      narrow.map (fun b => .command d (encode v (if b then .next32 else .next)).toNat) ++ rest →
    Host.Core.run Sys2Proof.core narrow.length s = .next { s with
      target := d
      inputs := rest
      inst := s.inst.set d ⟨v, { e with
        words := Nat.iterate twist ((narrow.length + v.N - 1) / v.N) e.words
        cursor := (narrow.length - 1) % v.N + 1 }⟩
      responses := s.responses ++ narrow.zipIdx.map (fun p =>
        let x := temper (readWord (Nat.iterate twist (p.2 / v.N + 1) e.words) (p.2 % v.N))
        ⟨d, v, .ok, if p.1 then BitVec.ofNat v.W (x.toNat % 2 ^ 32) else x⟩) }

/-! ## System commands -/

/-- R120: RDCUR: its words; in every state the cursor as data, and nothing changed. -/
def Obligations.RdcurResult : Prop :=
  (∀ (v : Variant) (arg : Word v), decode v (0x07#8 ++ arg) = .command .rdcur) ∧
  ∀ (s : State) (v : Variant) (e : Engine v), s.inst[s.target]? = some ⟨v, e⟩ →
    exec .rdcur s = .next { s with
      responses := s.responses ++ [⟨s.target, v, .ok, BitVec.ofNat v.W e.cursor⟩] }

/-- R121, R136: CLONE, with every `W`-bit operand: its words; from a seeded instance of the same variant `words` and
`cursor` copied and the key buffer kept (the source is as it was, since nothing but the target is replaced); otherwise
refused, with the checks in their order. -/
def Obligations.CloneResult : Prop :=
  (∀ (v : Variant) (arg : Word v), decode v (0x08#8 ++ arg) = .command (.clone arg.toNat)) ∧
  ∀ (s : State) (v : Variant) (e : Engine v) (arg : Word v), s.inst[s.target]? = some ⟨v, e⟩ →
    (s.numInst ≤ arg.toNat →
      exec (.clone arg.toNat) s = .next { s with
        responses := s.responses ++ [⟨s.target, v, .error .badOperand, 0⟩] }) ∧
    (∀ x, s.inst[arg.toNat]? = some x → x.variant ≠ v →
      exec (.clone arg.toNat) s = .next { s with
        responses := s.responses ++ [⟨s.target, v, .error .badOperand, 0⟩] }) ∧
    (∀ b : Engine v, s.inst[arg.toNat]? = some ⟨v, b⟩ → b.cursor = v.N + 1 →
      exec (.clone arg.toNat) s = .next { s with
        responses := s.responses ++ [⟨s.target, v, .error .notSeeded, 0⟩] }) ∧
    (∀ b : Engine v, s.inst[arg.toNat]? = some ⟨v, b⟩ → b.cursor ≠ v.N + 1 →
      exec (.clone arg.toNat) s = .next { s with
        inst := s.inst.set s.target ⟨v, { e with words := b.words, cursor := b.cursor }⟩
        responses := s.responses ++ [⟨s.target, v, .ok, 0⟩] })

/-- The model's choice (log entry 12), no rule of the spec: an operand of CLONE that does not fit the port's word, which
no command word gives, names the instance of that number, as it is and not modulo `2^W`. -/
def Obligations.WideCloneOperandIsUsedAsItIs : Prop :=
  ∀ (s : State) (v : Variant) (e : Engine v) (src : Nat), s.inst[s.target]? = some ⟨v, e⟩ → 2 ^ v.W ≤ src →
    (s.numInst ≤ src →
      exec (.clone src) s = .next { s with
        responses := s.responses ++ [⟨s.target, v, .error .badOperand, 0⟩] }) ∧
    (∀ x, s.inst[src]? = some x → x.variant ≠ v →
      exec (.clone src) s = .next { s with
        responses := s.responses ++ [⟨s.target, v, .error .badOperand, 0⟩] }) ∧
    (∀ b : Engine v, s.inst[src]? = some ⟨v, b⟩ → b.cursor = v.N + 1 →
      exec (.clone src) s = .next { s with
        responses := s.responses ++ [⟨s.target, v, .error .notSeeded, 0⟩] }) ∧
    (∀ b : Engine v, s.inst[src]? = some ⟨v, b⟩ → b.cursor ≠ v.N + 1 →
      exec (.clone src) s = .next { s with
        inst := s.inst.set s.target ⟨v, { e with words := b.words, cursor := b.cursor }⟩
        responses := s.responses ++ [⟨s.target, v, .ok, 0⟩] })

/-- R121: CLONE of itself changes no instance (for a target number of `2^W` or more, by log entry 12). -/
def Obligations.CloneOfItselfChangesNothing : Prop :=
  ∀ (s : State) (v : Variant) (e : Engine v), s.inst[s.target]? = some ⟨v, e⟩ → e.cursor ≠ v.N + 1 →
    exec (.clone s.target) s = .next { s with responses := s.responses ++ [⟨s.target, v, .ok, 0⟩] }

/-- R122: after a successful CLONE the copy and the original, sent extractions in any interleaving, answer alike: if
both are sent the same row of NEXT and NEXT32, both give the same row of answers. In `seq` the first part of a pair says
whether the command goes to the copy, the second whether it is NEXT32. -/
def Obligations.CloneIndependence : Prop :=
  ∀ (s : State) (v : Variant) (e b : Engine v) (d src : Nat) (seq : List (Bool × Bool)) (rest : List Input),
    d ≠ src → s.inst[d]? = some ⟨v, e⟩ → s.inst[src]? = some ⟨v, b⟩ → b.cursor ≠ v.N + 1 → src < 2 ^ v.W →
    s.inputs = .command d (encode v (.clone src)).toNat ::
      seq.map (fun p => .command (if p.1 then d else src) (encode v (if p.2 then .next32 else .next)).toNat)
        ++ rest →
    (seq.filter (fun p => p.1)).map Prod.snd = (seq.filter (fun p => !p.1)).map Prod.snd →
    ∃ t new, Host.Core.run Sys2Proof.core (seq.length + 1) s = .next t ∧ t.inputs = rest ∧
      t.responses = s.responses ++ ⟨d, v, .ok, 0⟩ :: new ∧ new.length = seq.length ∧
      (new.filter (fun r => r.port == d)).map (fun r => (r.status, r.data.toNat)) =
        (new.filter (fun r => r.port == src)).map (fun r => (r.status, r.data.toNat))

/-! ## The whole machine -/

/-- R21, R24, R25: every step keeps the invariant. -/
def Obligations.StepKeepsInvariant : Prop :=
  ∀ s t : State, s.Inv → step s = .next t → t.Inv

/-- R29: the invariant holds right after reset, for all legal build parameters, those of `State.reset` among them. -/
def Obligations.InvariantHoldsAtReset : Prop :=
  (∀ c : Config, c.Legal → (State.ofConfig c).Inv) ∧ State.reset.Inv

/-- R60, R130: every command word is answered by exactly one response, on the port it was sent to; if it is refused,
its data is zero and no instance, nor anything else but the taken input and that response, is changed. -/
def Obligations.RefusedCommandChangesNothing : Prop :=
  ∀ (s t : State) (d word : Nat) (rest : List Input), s.inputs = .command d word :: rest → step s = .next t →
    ∃ r : Response, r.port = d ∧ t.responses = s.responses ++ [r] ∧ t.inputs = rest ∧
      (r.status ≠ .ok →
        r.data = 0 ∧ t = { s with target := d, inputs := rest, responses := s.responses ++ [r] })

/-- R131, R139: which command is refused with which status, and exactly when (for an operand of CLONE that no command
word gives, by log entry 12). -/
def Obligations.RefusalCausesAreExact : Prop :=
  ∀ (i : Instr) (s t : State) (v : Variant) (e : Engine v) (r : Response),
    s.inst[s.target]? = some ⟨v, e⟩ → exec i s = .next t → t.responses = s.responses ++ [r] →
    (r.status = .error .invalidSeed ↔ i = .seedk ∧ e.keyLen = 0) ∧
    (r.status = .error .notSeeded ↔
      (i = .next ∧ e.cursor = v.N + 1) ∨ (i = .next32 ∧ v = .mt64 ∧ e.cursor = v.N + 1) ∨
      ∃ (src : Nat) (b : Engine v), i = .clone src ∧ s.inst[src]? = some ⟨v, b⟩ ∧ b.cursor = v.N + 1) ∧
    (r.status = .error .illegalCommand ↔ i = .next32 ∧ v = .mt32) ∧
    (r.status = .error .keyOverflow ↔ ∃ arg, i = .kpush arg ∧ e.keyLen = s.keyMax) ∧
    (r.status = .error .badOperand ↔
      ∃ src, i = .clone src ∧ (s.numInst ≤ src ∨ ∃ x, s.inst[src]? = some x ∧ x.variant ≠ v))

/-- R27, R30: a command changes no instance but the one it was sent to, and none of the rest of the state but the
responses; the instance keeps its variant. -/
def Obligations.OnlyTheTargetChanges : Prop :=
  ∀ (i : Instr) (s t : State), exec i s = .next t →
    (∀ d, d ≠ s.target → t.inst[d]? = s.inst[d]?) ∧ t.inst.map Inst.variant = s.inst.map Inst.variant ∧
    t.keyMax = s.keyMax ∧ t.target = s.target ∧ t.inputs = s.inputs ∧ t.resets = s.resets

/-- R25, R30: the key buffer is changed by KCLR (its length only) and KPUSH (one entry and its length) alone, and these
two change neither `words` nor `cursor`; RDCUR changes nothing of the engine. -/
def Obligations.KeyBufferFrame : Prop :=
  ∀ (i : Instr) (s t : State) (v : Variant) (e e' : Engine v),
    s.inst[s.target]? = some ⟨v, e⟩ → exec i s = .next t → t.inst[s.target]? = some ⟨v, e'⟩ →
    ((∀ arg, i ≠ .kpush arg) → e'.key = e.key ∧ (i ≠ .kclr → e'.keyLen = e.keyLen)) ∧
    (∀ arg, i = .kpush arg → ∀ j, j ≠ e.keyLen → e'.key[j]? = e.key[j]?) ∧
    ((i = .kclr ∨ ∃ arg, i = .kpush arg) → e'.words = e.words ∧ e'.cursor = e.cursor) ∧
    (i = .rdcur → e' = e)

/-- R22: how each command that is not refused leaves the cursor (for an operand of CLONE that no command word gives, by
log entry 12). -/
def Obligations.CursorEffects : Prop :=
  ∀ (i : Instr) (s t : State) (v : Variant) (e e' : Engine v) (r : Response),
    s.inst[s.target]? = some ⟨v, e⟩ → exec i s = .next t → t.inst[s.target]? = some ⟨v, e'⟩ →
    t.responses = s.responses ++ [r] → e.cursor ≤ v.N + 1 →
    (r.status ≠ .ok → e'.cursor = e.cursor) ∧
    (r.status = .ok →
      (((∃ arg, i = .seed arg) ∨ i = .seedk) → e'.cursor = v.N) ∧
      ((i = .next ∨ i = .next32) →
        (e.cursor = v.N → e'.cursor = 1) ∧ (e.cursor < v.N → e'.cursor = e.cursor + 1) ∧
        1 ≤ e'.cursor ∧ e'.cursor ≤ v.N) ∧
      ((i = .kclr ∨ i = .rdcur ∨ ∃ arg, i = .kpush arg) → e'.cursor = e.cursor) ∧
      (∀ src, i = .clone src → ∃ b : Engine v, s.inst[src]? = some ⟨v, b⟩ ∧ e'.cursor = b.cursor))

/-- R23: a SEED, a SEEDK or a CLONE that succeeds leaves its instance seeded; nothing else that a command can do makes
an unseeded instance seeded; and once seeded, an instance stays seeded through every step that is no reset. -/
def Obligations.SeededUntilReset : Prop :=
  (∀ (s t : State) (d : Nat) (v : Variant) (e : Engine v),
    (∀ inFlight rest, s.inputs ≠ .rst inFlight :: rest) → step s = .next t →
    s.inst[d]? = some ⟨v, e⟩ → e.cursor ≠ v.N + 1 →
    ∃ e' : Engine v, t.inst[d]? = some ⟨v, e'⟩ ∧ e'.cursor ≠ v.N + 1) ∧
  (∀ (i : Instr) (s t : State) (v : Variant) (e e' : Engine v), exec i s = .next t →
    s.inst[s.target]? = some ⟨v, e⟩ → t.inst[s.target]? = some ⟨v, e'⟩ → e.cursor = v.N + 1 → e'.cursor ≠ v.N + 1 →
    (∃ arg, i = .seed arg) ∨ i = .seedk ∨ ∃ src, i = .clone src) ∧
  (∀ (i : Instr) (s t : State) (v : Variant) (e e' : Engine v) (r : Response), exec i s = .next t →
    s.inst[s.target]? = some ⟨v, e⟩ → t.inst[s.target]? = some ⟨v, e'⟩ → t.responses = s.responses ++ [r] →
    r.status = .ok → ((∃ arg, i = .seed arg) ∨ i = .seedk ∨ ∃ src, i = .clone src) → e'.cursor ≠ v.N + 1)

/-- R166 and Part A of spec/93_implementation_defined.md: a step whose next input is one a host can present, or that has
none, never stops the machine. -/
def Obligations.PresentableInputsNeverStop : Prop :=
  ∀ s : State, (∀ inp rest, s.inputs = inp :: rest → inp.Legal s) → ∃ t, step s = .next t

/-- R2, R5: no step changes a build parameter. -/
def Obligations.StepKeepsConfiguration : Prop :=
  ∀ s t : State, step s = .next t → t.config = s.config

/-- R46: what a command other than CLONE answers and leaves in its instance depends on that instance, the command and
`KEY_MAX` alone: the same for two systems that agree on these. -/
def Obligations.CommandDependsOnItsInstanceOnly : Prop :=
  ∀ (i : Instr) (s s' t : State) (v : Variant) (e : Engine v), (∀ src, i ≠ .clone src) →
    s.inst[s.target]? = some ⟨v, e⟩ → t.inst[t.target]? = some ⟨v, e⟩ → s.keyMax = t.keyMax →
    exec i s = .next s' →
    ∃ (t' : State) (e' : Engine v) (st : Status) (x : Word v), exec i t = .next t' ∧
      s'.inst[s.target]? = some ⟨v, e'⟩ ∧ t'.inst[t.target]? = some ⟨v, e'⟩ ∧
      s'.responses = s.responses ++ [⟨s.target, v, st, x⟩] ∧
      t'.responses = t.responses ++ [⟨t.target, v, st, x⟩]

/-- R46 (3): commands other than CLONE sent to two instances commute: in either order they leave the same instances and
give the same two answers. -/
def Obligations.CommandsToDifferentInstancesCommute : Prop :=
  ∀ (i j : Instr) (s a b : State) (c d : Nat), c ≠ d → (∀ src, i ≠ .clone src) → (∀ src, j ≠ .clone src) →
    exec i { s with target := c } = .next a → exec j { a with target := d } = .next b →
    ∃ (a' b' : State) (p q : Response), exec j { s with target := d } = .next a' ∧
      exec i { a' with target := c } = .next b' ∧ b'.inst = b.inst ∧
      b.responses = s.responses ++ [p, q] ∧ b'.responses = s.responses ++ [q, p]

/-- R29, U1, U4: the cells that hold no value (the words of an unseeded instance, the key entries at `key_len` and
above) reach no response and no other cell: two states that differ only there answer alike for ever. -/
def Obligations.CellsWithoutValueAreNeverObserved : Prop :=
  ∀ (n : Nat) (s t s' : State), State.Same s t → Host.Core.run Sys2Proof.core n s = .next s' →
    ∃ t', Host.Core.run Sys2Proof.core n t = .next t' ∧ State.Same s' t'

/-! ## Views from outside -/

/-- R70, R71: every line for a port that exists, each operand less than `2^W`, is accepted, whatever its mnemonics and
the port's variant; its inputs are, in order, the opcode and the operand bits of each command it stands for. A line with
a wider operand is refused, SEEDA as a whole (log entry 20), and so is a line for a port that does not exist (log
entry 20). -/
def Obligations.AssemblerAcceptsExactly : Prop :=
  (∀ (s : State) (l : AsmLine) (x : Inst), s.inst[l.port]? = some x →
    ((∀ i ∈ l.body.expand, i.operandFits x.variant = true) →
      assemble s l = some (l.body.expand.map fun i =>
        .command l.port (i.opcode.toNat * 2 ^ x.variant.W + (i.argBits x.variant).toNat))) ∧
    ((∃ i ∈ l.body.expand, i.operandFits x.variant = false) → assemble s l = none)) ∧
  (∀ (s : State) (l : AsmLine), s.inst[l.port]? = none → assemble s l = none)

/-- R70, R71, R65: the inputs of a line the assembler accepts (which lines it does: `AssemblerAcceptsExactly`) are, in
order, command words of the line's port that decode to the commands the line stands for, but for NEXT32 on an MT32 port,
whose word is the illegal one. -/
def Obligations.AssembledLinesDecode : Prop :=
  ∀ (s : State) (l : AsmLine) (ins : List Input), assemble s l = some ins →
    ∃ x, s.inst[l.port]? = some x ∧
      List.Forall₂ (fun inp i => ∃ word, inp = Input.command l.port word ∧ word < 2 ^ (8 + x.variant.W) ∧
        decode x.variant (BitVec.ofNat (8 + x.variant.W) word) =
          if i = .next32 ∧ x.variant = .mt32 then .illegal .next32OnMt32 else .command i) ins l.body.expand

/-- R43: the byte view of a word: `W/8` bytes, byte `b` worth `256^b`. -/
def Obligations.ByteViewIsLittleEndian : Prop :=
  ∀ (v : Variant) (x : Word v), (wordBytes x).length = v.W / 8 ∧
    (∀ b, b < v.W / 8 → (wordBytes x)[b]? = some (BitVec.ofNat 8 (x.toNat / 256 ^ b))) ∧
    (wordBytes x).foldr (fun y acc => y.toNat + 256 * acc) 0 = x.toNat
end

