-- ==== Sys2Proof/Laws/State.lean ====
section
/-! SUPPORT. One lemma per field per update of State, and what the reset operations leave. -/

namespace Sys2Proof.Machine

@[simp] theorem State.respond_keyMax (s : State) (v : Variant) (st : Status) (x : Word v) :
    (s.respond v st x).keyMax = s.keyMax := rfl
@[simp] theorem State.respond_inst (s : State) (v : Variant) (st : Status) (x : Word v) :
    (s.respond v st x).inst = s.inst := rfl
@[simp] theorem State.respond_target (s : State) (v : Variant) (st : Status) (x : Word v) :
    (s.respond v st x).target = s.target := rfl
@[simp] theorem State.respond_inputs (s : State) (v : Variant) (st : Status) (x : Word v) :
    (s.respond v st x).inputs = s.inputs := rfl
@[simp] theorem State.respond_responses (s : State) (v : Variant) (st : Status) (x : Word v) :
    (s.respond v st x).responses = s.responses ++ [⟨s.target, v, st, x⟩] := rfl
@[simp] theorem State.respond_resets (s : State) (v : Variant) (st : Status) (x : Word v) :
    (s.respond v st x).resets = s.resets := rfl

@[simp] theorem State.raise_keyMax (s : State) (v : Variant) (err : Error) : (s.raise v err).keyMax = s.keyMax := rfl
@[simp] theorem State.raise_inst (s : State) (v : Variant) (err : Error) : (s.raise v err).inst = s.inst := rfl
@[simp] theorem State.raise_target (s : State) (v : Variant) (err : Error) : (s.raise v err).target = s.target := rfl
@[simp] theorem State.raise_inputs (s : State) (v : Variant) (err : Error) : (s.raise v err).inputs = s.inputs := rfl
@[simp] theorem State.raise_responses (s : State) (v : Variant) (err : Error) :
    (s.raise v err).responses = s.responses ++ [⟨s.target, v, .error err, 0⟩] := rfl
@[simp] theorem State.raise_resets (s : State) (v : Variant) (err : Error) : (s.raise v err).resets = s.resets := rfl

@[simp] theorem State.setTarget_keyMax (s : State) (x : Inst) : (s.setTarget x).keyMax = s.keyMax := rfl
@[simp] theorem State.setTarget_inst (s : State) (x : Inst) : (s.setTarget x).inst = s.inst.set s.target x := rfl
@[simp] theorem State.setTarget_target (s : State) (x : Inst) : (s.setTarget x).target = s.target := rfl
@[simp] theorem State.setTarget_inputs (s : State) (x : Inst) : (s.setTarget x).inputs = s.inputs := rfl
@[simp] theorem State.setTarget_responses (s : State) (x : Inst) : (s.setTarget x).responses = s.responses := rfl
@[simp] theorem State.setTarget_resets (s : State) (x : Inst) : (s.setTarget x).resets = s.resets := rfl

@[simp] theorem State.present_keyMax (s : State) (d : Nat) (r : List Input) : (s.present d r).keyMax = s.keyMax := rfl
@[simp] theorem State.present_inst (s : State) (d : Nat) (r : List Input) : (s.present d r).inst = s.inst := rfl
@[simp] theorem State.present_target (s : State) (d : Nat) (r : List Input) : (s.present d r).target = d := rfl
@[simp] theorem State.present_inputs (s : State) (d : Nat) (r : List Input) : (s.present d r).inputs = r := rfl
@[simp] theorem State.present_responses (s : State) (d : Nat) (r : List Input) :
    (s.present d r).responses = s.responses := rfl
@[simp] theorem State.present_resets (s : State) (d : Nat) (r : List Input) : (s.present d r).resets = s.resets := rfl

/-! ## Reset values -/

@[simp] theorem Engine.reset_cursor (v : Variant) (k n d : Nat) : (Engine.reset v k n d).cursor = v.N + 1 := rfl
@[simp] theorem Engine.reset_keyLen (v : Variant) (k n d : Nat) : (Engine.reset v k n d).keyLen = 0 := rfl
@[simp] theorem Engine.length_reset_words (v : Variant) (k n d : Nat) :
    (Engine.reset v k n d).words.length = v.N := by simp [Engine.reset]
@[simp] theorem Engine.length_reset_key (v : Variant) (k n d : Nat) :
    (Engine.reset v k n d).key.length = k := by simp [Engine.reset]

/-- Reset leaves every engine in its ranges. -/
theorem Engine.reset_ok (v : Variant) (k n d : Nat) : (Engine.reset v k n d).Ok k := by
  simp [Engine.Ok]

/-- Reset leaves every engine unseeded. -/
theorem Engine.reset_unseeded (v : Variant) (k n d : Nat) : (Engine.reset v k n d).seeded = false := by
  simp [Engine.seeded]

/-- What instance `j` of a list of reset instances is. -/
theorem getElem?_resetInsts (k n : Nat) (vs : List Variant) (d j : Nat) :
    (resetInsts k n d vs)[j]? = vs[j]?.map fun v => ⟨v, Engine.reset v k n (d + j)⟩ := by
  induction vs generalizing d j with
  | nil => simp [resetInsts]
  | cons v vs ih =>
    cases j with
    | zero => simp [resetInsts]
    | succ j => simp [resetInsts, ih, Nat.add_assoc, Nat.add_comm 1 j]

@[simp] theorem map_variant_resetInsts (k n d : Nat) (vs : List Variant) :
    (resetInsts k n d vs).map Inst.variant = vs := by
  induction vs generalizing d with
  | nil => rfl
  | cons v vs ih => simp [resetInsts, ih]

@[simp] theorem length_resetInsts (k n d : Nat) (vs : List Variant) : (resetInsts k n d vs).length = vs.length := by
  rw [← List.length_map (f := Inst.variant), map_variant_resetInsts]

/-- Every instance reset leaves is a reset engine of some number. -/
theorem mem_resetInsts {k n d : Nat} {vs : List Variant} {x : Inst} (h : x ∈ resetInsts k n d vs) :
    ∃ v j, x = ⟨v, Engine.reset v k n j⟩ := by
  induction vs generalizing d with
  | nil => simp [resetInsts] at h
  | cons v vs ih =>
    rcases List.mem_cons.mp h with h | h
    · exact ⟨v, d, h⟩
    · exact ih h

end Sys2Proof.Machine
end

