-- ==== Sys2Proof/Laws/Ops.lean ====
section
/-! SUPPORT. What each shared operation does, said once: the arrays keep their size, a read after a write, the cases
of an extraction and of a transaction. -/

namespace Sys2Proof.Machine

/-! ## Constants -/

theorem Variant_N_pos (v : Variant) : 1 < v.N := by cases v <;> decide
theorem Variant_M_lt_N (v : Variant) : v.M < v.N := by cases v <;> decide
theorem Variant_M_pos (v : Variant) : 0 < v.M := by cases v <;> decide
theorem upperMask_lowerMask (v : Variant) : v.upperMask = ~~~ v.lowerMask := by cases v <;> decide

/-! ## Cells -/

@[simp] theorem length_writeWord {v : Variant} (ws : List (Word v)) (i : Nat) (x : Word v) :
    (writeWord ws i x).length = ws.length := by simp [writeWord]

/-- A read after a write to the same cell gives the value written. -/
theorem readWord_writeWord_self {v : Variant} (ws : List (Word v)) (i : Nat) (x : Word v) (h : i < ws.length) :
    readWord (writeWord ws i x) i = x := by simp [readWord, writeWord, h]

/-- A write leaves every other cell alone. -/
theorem readWord_writeWord_ne {v : Variant} (ws : List (Word v)) (i j : Nat) (x : Word v) (h : i ≠ j) :
    readWord (writeWord ws i x) j = readWord ws j := by
  simp [readWord, writeWord, List.getD_eq_getElem?_getD, List.getElem?_set_ne h]

theorem readWord_eq_of_getElem? {v : Variant} {ws : List (Word v)} {i : Nat} {x : Word v} (h : ws[i]? = some x) :
    readWord ws i = x := by simp [readWord, List.getD_eq_getElem?_getD, h]

theorem getElem?_eq_readWord {v : Variant} {ws : List (Word v)} {i : Nat} (h : i < ws.length) :
    ws[i]? = some (readWord ws i) := by
  simp [readWord, List.getD_eq_getElem?_getD, List.getElem?_eq_getElem h]

/-! ## Operands -/

/-- R64: a `W`-bit operand is used as it is. -/
@[simp] theorem operandWord_toNat {v : Variant} (x : Word v) : operandWord v x.toNat = x := by simp [operandWord]

/-- Log entry 12: a wider operand is taken modulo `2^W`. -/
theorem operandWord_mod (v : Variant) (arg : Nat) : operandWord v (arg % 2 ^ v.W) = operandWord v arg :=
  BitVec.eq_of_toNat_eq (by simp [operandWord])

/-! ## Sizes -/

@[simp] theorem length_scalarTail {v : Variant} (n i : Nat) (before : Word v) :
    (scalarTail n i before).length = n := by
  induction n generalizing i before with
  | zero => rfl
  | succ n ih => simp [scalarTail, ih]

@[simp] theorem length_scalarInit {v : Variant} (seed : Word v) : (scalarInit seed).length = v.N := by
  have := Variant_N_pos v
  simp only [scalarInit, List.length_cons, length_scalarTail]
  omega

@[simp] theorem Mix.length_advanceI {v : Variant} (m : Mix v) : m.advanceI.t.length = m.t.length := by
  unfold Mix.advanceI; split <;> simp

@[simp] theorem Mix.advanceJ_t {v : Variant} (len : Nat) (m : Mix v) : (m.advanceJ len).t = m.t := rfl

@[simp] theorem Mix.length_pass1 {v : Variant} (key : List (Word v)) (m : Mix v) :
    (m.pass1 key).t.length = m.t.length := by simp [Mix.pass1]

@[simp] theorem Mix.length_pass2 {v : Variant} (m : Mix v) : m.pass2.t.length = m.t.length := by simp [Mix.pass2]

/-- What one round keeps, all rounds keep. -/
theorem repeatTimes_keeps {α : Type} {f : α → α} {P : α → Prop} (hf : ∀ x, P x → P (f x)) (n : Nat) (x : α)
    (hx : P x) : P (repeatTimes f n x) := by
  induction n generalizing x with
  | zero => exact hx
  | succ n ih => exact ih (f x) (hf x hx)

/-- The last round, taken apart. -/
theorem repeatTimes_succ {α : Type} (f : α → α) (n : Nat) (x : α) :
    repeatTimes f (n + 1) x = f (repeatTimes f n x) := by
  induction n generalizing x with
  | zero => rfl
  | succ n ih => exact ih (f x)

@[simp] theorem length_arrayInit {v : Variant} (key : List (Word v)) : (arrayInit key).length = v.N := by
  have h1 := repeatTimes_keeps (f := Mix.pass1 key) (P := fun m => m.t.length = v.N)
    (fun m h => by simpa using h) (max v.N key.length) ⟨scalarInit v.keyBaseSeed, 1, 0⟩ (by simp)
  have h2 := repeatTimes_keeps (f := Mix.pass2 (v := v)) (P := fun m => m.t.length = v.N)
    (fun m h => by simpa using h) (v.N - 1) _ h1
  simpa [arrayInit] using h2

@[simp] theorem length_twistAt {v : Variant} (ws : List (Word v)) (k : Nat) :
    (twistAt ws k).length = ws.length := by simp [twistAt]

theorem length_foldl_twistAt {v : Variant} (ks : List Nat) (ws : List (Word v)) :
    (ks.foldl twistAt ws).length = ws.length := by
  induction ks generalizing ws with
  | nil => rfl
  | cons k ks ih => simp [ih]

@[simp] theorem length_twist {v : Variant} (ws : List (Word v)) : (twist ws).length = ws.length :=
  length_foldl_twistAt _ ws

/-! ## Conditions -/

theorem Engine.seeded_iff {v : Variant} (e : Engine v) : e.seeded = true ↔ e.cursor ≠ v.N + 1 := by
  simp [Engine.seeded]

theorem Engine.twistDue_iff {v : Variant} (e : Engine v) : e.twistDue = true ↔ e.cursor = v.N := by
  simp [Engine.twistDue]

theorem Engine.keyEmpty_iff {v : Variant} (e : Engine v) : e.keyEmpty = true ↔ e.keyLen = 0 := by
  simp [Engine.keyEmpty]

theorem Engine.keyFull_iff {v : Variant} (k : Nat) (e : Engine v) : e.keyFull k = true ↔ e.keyLen = k := by
  simp [Engine.keyFull]

/-! ## Extraction -/

@[simp] theorem Engine.ready_key {v : Variant} (e : Engine v) : e.ready.key = e.key := by
  unfold Engine.ready; split <;> rfl

@[simp] theorem Engine.ready_keyLen {v : Variant} (e : Engine v) : e.ready.keyLen = e.keyLen := by
  unfold Engine.ready; split <;> rfl

@[simp] theorem Engine.length_ready_words {v : Variant} (e : Engine v) : e.ready.words.length = e.words.length := by
  unfold Engine.ready; split <;> simp [Engine.twist]

/-- An extraction without a twist. -/
theorem Engine.extract_eq_of_lt {v : Variant} (e : Engine v) (h : e.cursor < v.N) :
    e.extract = .ok ({ e with cursor := e.cursor + 1 }, temper (readWord e.words e.cursor)) := by
  have hs : e.seeded = true := by rw [Engine.seeded_iff]; omega
  have ht : e.twistDue = false := by simp [Engine.twistDue]; omega
  simp [Engine.extract, hs, Engine.ready, ht]

/-- An extraction that twists first. -/
theorem Engine.extract_eq_of_eq {v : Variant} (e : Engine v) (h : e.cursor = v.N) :
    e.extract = .ok ({ e with words := Sys2Proof.Machine.twist e.words, cursor := 1 },
      temper (readWord (Sys2Proof.Machine.twist e.words) 0)) := by
  have hs : e.seeded = true := by rw [Engine.seeded_iff]; omega
  simp [Engine.extract, hs, Engine.ready, Engine.twistDue, h, Engine.twist]

/-- An extraction of an unseeded engine. -/
theorem Engine.extract_eq_of_unseeded {v : Variant} (e : Engine v) (h : e.cursor = v.N + 1) :
    e.extract = .error .notSeeded := by
  have hs : e.seeded = false := by simp [Engine.seeded, h]
  simp [Engine.extract, hs]

/-- Everything an extraction that succeeds can do. -/
theorem Engine.extract_ok {v : Variant} {e e' : Engine v} {x : Word v} (h : e.extract = .ok (e', x)) :
    e.seeded = true ∧ e' = { e.ready with cursor := e.ready.cursor + 1 } ∧
    x = temper (readWord e.ready.words e.ready.cursor) := by
  unfold Engine.extract at h
  split at h
  · next hs => cases h; exact ⟨hs, rfl, rfl⟩
  · cases h

/-! ## Transactions -/

theorem transact_eq_ok {s : State} {f : (v : Variant) → Engine v → Except Error (Engine v × Word v)} {v : Variant}
    {e e' : Engine v} {x : Word v} (ht : s.inst[s.target]? = some ⟨v, e⟩) (hf : f v e = .ok (e', x)) :
    transact s f = .next ((s.setTarget ⟨v, e'⟩).respond v .ok x) := by
  simp [transact, ht, hf]

theorem transact_eq_error {s : State} {f : (v : Variant) → Engine v → Except Error (Engine v × Word v)} {v : Variant}
    {e : Engine v} {err : Error} (ht : s.inst[s.target]? = some ⟨v, e⟩) (hf : f v e = .error err) :
    transact s f = .next (s.raise v err) := by
  simp [transact, ht, hf]

/-- Everything a transaction that answers a next state can do: complete, or be refused. -/
theorem transact_cases {s t : State} {f : (v : Variant) → Engine v → Except Error (Engine v × Word v)}
    (h : transact s f = .next t) :
    ∃ (v : Variant) (e : Engine v), s.inst[s.target]? = some ⟨v, e⟩ ∧
      ((∃ e' x, f v e = .ok (e', x) ∧ t = (s.setTarget ⟨v, e'⟩).respond v .ok x) ∨
       (∃ err, f v e = .error err ∧ t = s.raise v err)) := by
  unfold transact at h
  split at h
  · cases h
  · next v e ht =>
    refine ⟨v, e, ht, ?_⟩
    split at h
    · next e' x hf => cases h; exact .inl ⟨e', x, hf, rfl⟩
    · next err hf => cases h; exact .inr ⟨err, hf, rfl⟩

end Sys2Proof.Machine
end

