-- ==== Sys2Proof/Laws/Commands.lean ====
section
/-! SUPPORT. Every command is one transaction; what each command does to the engine it is sent to; what a step is. -/

namespace Sys2Proof.Machine

/-! ## The list of instances -/

/-- The instance just written is read back. -/
theorem getElem?_set_target {l : List Inst} {d : Nat} {x : Inst} (y : Inst) (h : l[d]? = some x) :
    (l.set d y)[d]? = some y := by
  have := (List.getElem?_eq_some_iff.mp h).1
  simp [this]

/-- Writing what is there changes nothing. -/
theorem set_target_self {l : List Inst} {d : Nat} {x : Inst} (h : l[d]? = some x) : l.set d x = l := by
  refine List.ext_getElem? fun j => ?_
  rw [List.getElem?_set]
  split
  · next hj => subst hj; split <;> simp_all
  · rfl

/-- An instance that is replaced by one of its variant keeps the list of variants. -/
theorem map_variant_set {l : List Inst} {d : Nat} {v : Variant} {e : Engine v} (e' : Engine v)
    (h : l[d]? = some ⟨v, e⟩) : (l.set d ⟨v, e'⟩).map Inst.variant = l.map Inst.variant := by
  rw [List.map_set]
  refine List.ext_getElem? fun j => ?_
  rw [List.getElem?_set]
  split
  · next hj => subst hj; rw [List.getElem?_map, h]; simp [(List.getElem?_eq_some_iff.mp h).1]
  · rfl

/-! ## Commands -/

/-- The engine effect of a command, its checks included. -/
def effect (s : State) : Instr → (v : Variant) → Engine v → Except Error (Engine v × Word v)
  | .seed arg, _, e => e.seed arg
  | .kclr, _, e => e.kclr
  | .kpush arg, _, e => e.kpush s.keyMax arg
  | .seedk, _, e => e.seedk
  | .next, _, e => e.extract
  | .next32, _, e => e.next32
  | .rdcur, _, e => e.rdcur
  | .clone src, _, e => e.clone (operandInst s src)

/-- The meaning of every command is a transaction with its engine effect. -/
theorem exec_eq_transact (i : Instr) (s : State) : exec i s = transact s (effect s i) := by
  cases i <;> rfl

/-- Everything a command that answers a next state can do. -/
theorem exec_cases {i : Instr} {s t : State} (h : exec i s = .next t) :
    ∃ (v : Variant) (e : Engine v), s.inst[s.target]? = some ⟨v, e⟩ ∧
      ((∃ e' x, effect s i v e = .ok (e', x) ∧ t = (s.setTarget ⟨v, e'⟩).respond v .ok x) ∨
       (∃ err, effect s i v e = .error err ∧ t = s.raise v err)) :=
  transact_cases (exec_eq_transact i s ▸ h)

/-- A command sent to a port that exists answers a next state. -/
theorem exec_answers {s : State} {x : Inst} (i : Instr) (ht : s.inst[s.target]? = some x) :
    ∃ t, exec i s = .next t := by
  obtain ⟨v, e⟩ := x
  rw [exec_eq_transact]
  cases hf : effect s i v e with
  | ok r => exact ⟨_, transact_eq_ok ht hf⟩
  | error err => exact ⟨_, transact_eq_error ht hf⟩

/-! ## Inversions: what a command that succeeds does to its engine -/

theorem Engine.kpush_ok {v : Variant} {k arg : Nat} {e e' : Engine v} {x : Word v}
    (h : e.kpush k arg = .ok (e', x)) :
    e.keyLen ≠ k ∧ x = 0 ∧
    e' = { e with key := writeWord e.key e.keyLen (operandWord v arg), keyLen := e.keyLen + 1 } := by
  unfold Engine.kpush at h
  split at h
  · cases h
  · next hf => cases h; exact ⟨fun he => hf ((Engine.keyFull_iff k e).mpr he), rfl, rfl⟩

theorem Engine.seedk_ok {v : Variant} {e e' : Engine v} {x : Word v} (h : e.seedk = .ok (e', x)) :
    e.keyLen ≠ 0 ∧ x = 0 ∧ e' = { e with words := arrayInit (e.key.take e.keyLen), cursor := v.N } := by
  unfold Engine.seedk at h
  split at h
  · cases h
  · next hf => cases h; exact ⟨fun he => hf ((Engine.keyEmpty_iff e).mpr he), rfl, rfl⟩

theorem Engine.next32_ok {v : Variant} {e e' : Engine v} {x : Word v} (h : e.next32 = .ok (e', x)) :
    v = .mt64 ∧ ∃ y, e.extract = .ok (e', y) ∧ x = low32 y := by
  cases v with
  | mt32 => cases h
  | mt64 =>
    refine ⟨rfl, ?_⟩
    simp only [Engine.next32] at h
    cases hx : e.extract with
    | error err => rw [hx] at h; cases h
    | ok r => rw [hx] at h; cases h; exact ⟨r.2, rfl, rfl⟩

theorem Engine.clone_ok {v : Variant} {src : Option Inst} {e e' : Engine v} {x : Word v}
    (h : e.clone src = .ok (e', x)) :
    ∃ b : Engine v, src = some ⟨v, b⟩ ∧ b.seeded = true ∧ e' = e.copyFrom b ∧ x = 0 := by
  unfold Engine.clone at h
  split at h
  · cases h
  · next y =>
    obtain ⟨u, b⟩ := y
    split at h
    · next hu =>
      subst hu
      split at h
      · next hs => cases h; exact ⟨b, rfl, hs, rfl, rfl⟩
      · cases h
    · cases h

/-! ## Every engine effect keeps the engine in its ranges -/

theorem Engine.extract_keeps_ok {v : Variant} {k : Nat} {e e' : Engine v} {x : Word v} (he : e.Ok k)
    (h : e.extract = .ok (e', x)) : e'.Ok k := by
  obtain ⟨hs, rfl, -⟩ := Engine.extract_ok h
  have hc : e.ready.cursor ≤ v.N := by
    have := (Engine.seeded_iff e).mp hs
    have := he.2.1
    unfold Engine.ready
    split
    · simp [Engine.twist]
    · omega
  exact ⟨by simpa using he.1, by simpa using hc, by simpa using he.2.2.1, by simpa using he.2.2.2⟩

/-- The one lemma for all eight commands. -/
theorem effect_keeps_ok {s : State} {i : Instr} {v : Variant} {e e' : Engine v} {x : Word v}
    (hs : ∀ y ∈ s.inst, y.eng.Ok s.keyMax) (he : e.Ok s.keyMax) (h : effect s i v e = .ok (e', x)) :
    e'.Ok s.keyMax := by
  obtain ⟨h1, h2, h3, h4⟩ := he
  cases i with
  | seed arg => cases h; exact ⟨by simp, by simp, h3, h4⟩
  | kclr => cases h; exact ⟨h1, h2, h3, by simp⟩
  | kpush arg =>
    obtain ⟨hne, -, rfl⟩ := Engine.kpush_ok h
    exact ⟨h1, h2, by simpa using h3, by simp only; omega⟩
  | seedk =>
    obtain ⟨-, -, rfl⟩ := Engine.seedk_ok h
    exact ⟨by simp, by simp, h3, h4⟩
  | next => exact Engine.extract_keeps_ok ⟨h1, h2, h3, h4⟩ h
  | next32 =>
    obtain ⟨-, y, hy, -⟩ := Engine.next32_ok h
    exact Engine.extract_keeps_ok ⟨h1, h2, h3, h4⟩ hy
  | rdcur => cases h; exact ⟨h1, h2, h3, h4⟩
  | clone src =>
    obtain ⟨b, hb, -, rfl, -⟩ := Engine.clone_ok h
    have hb' := hs _ (List.mem_of_getElem? hb)
    exact ⟨hb'.1, hb'.2.1, h3, h4⟩

/-! ## A step -/

theorem step_idle {s : State} (h : s.inputs = []) : step s = .next s := by simp [step, takeInput, h]

theorem step_command {s : State} {d word : Nat} {rest : List Input} (h : s.inputs = .command d word :: rest) :
    step s = transaction (s.present d rest) word := by simp [step, takeInput, h]

theorem step_rst {s : State} {q : Option (Nat × Nat)} {rest : List Input} (h : s.inputs = .rst q :: rest) :
    step s = resetEvent { s with inputs := rest } := by simp [step, takeInput, h]

/-- Everything a step that answers a next state can do: idle, run a decoded command, refuse an illegal word, reset. -/
theorem step_cases {s t : State} (h : step s = .next t) :
    (s.inputs = [] ∧ t = s) ∨
    (∃ d word rest x i, s.inputs = .command d word :: rest ∧ s.inst[d]? = some x ∧
      decode x.variant (BitVec.ofNat (8 + x.variant.W) word) = .command i ∧ exec i (s.present d rest) = .next t) ∨
    (∃ d word rest x why, s.inputs = .command d word :: rest ∧ s.inst[d]? = some x ∧
      decode x.variant (BitVec.ofNat (8 + x.variant.W) word) = .illegal why ∧
      t = (s.present d rest).raise x.variant .illegalCommand) ∨
    (∃ q rest, s.inputs = .rst q :: rest ∧ resetEvent { s with inputs := rest } = .next t) := by
  match hin : s.inputs with
  | [] => rw [step_idle hin] at h; cases h; exact .inl ⟨rfl, rfl⟩
  | .rst q :: rest => rw [step_rst hin] at h; exact .inr (.inr (.inr ⟨q, rest, rfl, h⟩))
  | .command d word :: rest =>
    rw [step_command hin] at h
    unfold transaction at h
    split at h
    · cases h
    · next x hx =>
      split at h
      · unfold runWord at h
        split at h
        · next i hd => exact .inr (.inl ⟨d, word, rest, x, i, rfl, hx, hd, h⟩)
        · next why hd => cases h; exact .inr (.inr (.inl ⟨d, word, rest, x, why, rfl, hx, hd, rfl⟩))
      · cases h

end Sys2Proof.Machine
end

