-- ==== Sys2Proof/Laws/PerInstr.lean ====
section
/-! SUPPORT. The family OpcodeField: the two fields of every encoded command (spec/30_encoding.md R61). -/

namespace Sys2Proof

/-- The opcode field of a word put together as R61 says. -/
theorem opField_append (v : Variant) (op : BitVec 8) (arg : Word v) : opField v (op ++ arg : CommandWord v) = op := by
  ext j hj
  simp [opField, BitVec.getElem_extractLsb', BitVec.getLsbD_append, hj]

/-- The operand field of a word put together as R61 says. -/
theorem argField_append (v : Variant) (op : BitVec 8) (arg : Word v) :
    argField v (op ++ arg : CommandWord v) = arg := by
  ext j hj
  simp [argField, BitVec.getLsbD_append, hj, ← BitVec.getLsbD_eq_getElem]

/-- The opcode of a command word as a number. -/
theorem opField_toNat (v : Variant) (cw : CommandWord v) : (opField v cw).toNat = cw.toNat / 2 ^ v.W := by
  have h := cw.isLt
  simp only [opField, BitVec.extractLsb'_toNat, Nat.shiftRight_eq_div_pow]
  refine Nat.mod_eq_of_lt ?_
  rw [Nat.div_lt_iff_lt_mul (by positivity)]
  rwa [pow_add] at h

/-- The operand of a command word as a number. -/
theorem argField_toNat (v : Variant) (cw : CommandWord v) : (argField v cw).toNat = cw.toNat % 2 ^ v.W := by
  simp [argField, BitVec.extractLsb'_toNat]

/-- The number of a word put together as R61 says. -/
theorem toNat_commandWord (v : Variant) (op : BitVec 8) (arg : Word v) :
    (op ++ arg : CommandWord v).toNat = op.toNat * 2 ^ v.W + arg.toNat := by
  rw [BitVec.toNat_append, Nat.shiftLeft_eq, Nat.mul_comm, ← Nat.two_pow_add_eq_or_of_lt arg.isLt]

end Sys2Proof

namespace Sys2Proof.Laws.OpcodeField

/-- The encoder puts the command's opcode and its operand bits into the fields the decoder reads. -/
def Statement (i : Instr) : Prop :=
  ∀ v : Variant, opField v (encode v i) = i.opcode ∧ argField v (encode v i) = i.argBits v

theorem seed (arg : Nat) : Statement (.seed arg) := fun v => ⟨opField_append v _ _, argField_append v _ _⟩
theorem kclr : Statement .kclr := fun v => ⟨opField_append v _ _, argField_append v _ _⟩
theorem kpush (arg : Nat) : Statement (.kpush arg) := fun v => ⟨opField_append v _ _, argField_append v _ _⟩
theorem seedk : Statement .seedk := fun v => ⟨opField_append v _ _, argField_append v _ _⟩
theorem next : Statement .next := fun v => ⟨opField_append v _ _, argField_append v _ _⟩
theorem next32 : Statement .next32 := fun v => ⟨opField_append v _ _, argField_append v _ _⟩
theorem rdcur : Statement .rdcur := fun v => ⟨opField_append v _ _, argField_append v _ _⟩
theorem clone (src : Nat) : Statement (.clone src) := fun v => ⟨opField_append v _ _, argField_append v _ _⟩

end Sys2Proof.Laws.OpcodeField
end

