-- ==== Sys2Proof/Tests/Slice0.lean ====
section
/-! SUPPORT. Small tests, their expected values from spec/95_test_vectors.md or by hand, and for each statement with
hypotheses a state that meets them all. -/

namespace Sys2Proof.Tests

open Sys2Proof Sys2Proof.Machine

/-! ## WellFormed: an ill-formed command for each check -/

theorem test_seed_operand_too_wide_mt32 : Instr.wellFormed .mt32 (.seed (2 ^ 32)) = false := by decide
theorem test_seed_operand_fits_mt64 : Instr.wellFormed .mt64 (.seed (2 ^ 32)) = true := by decide
theorem test_seed_operand_too_wide_mt64 : Instr.wellFormed .mt64 (.seed (2 ^ 64)) = false := by decide
theorem test_kpush_operand_too_wide : Instr.wellFormed .mt32 (.kpush (2 ^ 32)) = false := by decide
theorem test_clone_operand_too_wide : Instr.wellFormed .mt32 (.clone (2 ^ 32)) = false := by decide
theorem test_next32_illegal_on_mt32 : Instr.wellFormed .mt32 .next32 = false := by decide
theorem test_next32_legal_on_mt64 : Instr.wellFormed .mt64 .next32 = true := by decide

/-! ## Decode: each command's word, bit by bit as R61 and R63 write it (eight bits of opcode, then the operand) -/

theorem test_decode_seed : decode .mt32
    0b00000001_00000000000000000001010101110001#40 = .command (.seed 5489) := by decide
theorem test_decode_kclr : decode .mt32
    0b00000010_00000000000000000000000000000000#40 = .command .kclr := by decide
theorem test_decode_kpush : decode .mt32
    0b00000011_00000000000000000000000100100011#40 = .command (.kpush 0x123) := by decide
theorem test_decode_seedk : decode .mt64
    0b00000100_0000000000000000000000000000000000000000000000000000000000000000#72 = .command .seedk := by decide
theorem test_decode_next : decode .mt64
    0b00000101_1000000000000000000000000000000000000000000000000000000000000001#72 = .command .next := by decide
theorem test_decode_next32 : decode .mt64
    0b00000110_0000000000000000000000000000000000000000000000000000000000000000#72 = .command .next32 := by decide
theorem test_decode_rdcur : decode .mt32
    0b00000111_00000000000000000000000000000000#40 = .command .rdcur := by decide
theorem test_decode_clone : decode .mt32
    0b00001000_00000000000000000000000000000010#40 = .command (.clone 2) := by decide
theorem test_decode_top_operand_bit : decode .mt64
    0b00000001_1000000000000000000000000000000000000000000000000000000000000000#72 = .command (.seed (2 ^ 63)) := by
  decide
theorem test_decode_zero_word : decode .mt32 0#40 = .illegal (.reservedOpcode 0) := by decide
theorem test_decode_top_opcode : decode .mt32 0xFF00000000#40 = .illegal (.reservedOpcode 0xFF) := by decide
theorem test_encode_seed_mt64 : encode .mt64 (.seed 5489) = 0x010000000000001571#72 := by decide

/-! ## The host's table-numbered words -/

theorem test_table_rows :
    (List.range 11).map (decodeTableWord 8) =
      [none, some (.seed 0), some .kclr, some (.kpush 0), some .seedk, some .next, some .next32, some .rdcur,
        some (.clone 0), none, none] := by decide
theorem test_table_whole_word_mt32 : decodeTableWord 40 0x0100001571 = some (.seed 5489) := by decide
theorem test_table_whole_word_mt64 : decodeTableWord 72 0x060000000000000000 = some .next32 := by decide

/-- What the port answered last, as numbers. -/
def lastAnswer : Out → Option (Nat × Nat × Nat)
  | .next s => s.responses.getLast?.map fun r => (r.port, r.status.code.toNat, r.data.toNat)
  | .fault _ => none
  | .refused _ => none

/-- R120, R133: as the first command after reset, RDCUR answers N+1 and NEXT is refused. -/
theorem test_reset_then_rdcur : lastAnswer (step (State.reset.withFetchWord 8 0x07)) = some (2, 0, 313) := by decide
theorem test_reset_then_next : lastAnswer (step (State.reset.withFetchWord 40 0x0500000000)) = some (0, 2, 0) := by
  decide
theorem test_reset_then_reserved : lastAnswer (step (State.reset.withFetchWord 40 0x09FFFFFFFF)) = some (0, 3, 0) := by
  decide

/-! ## Seeders, twist, tempering -/

/-- Section 2.1 of the vectors. -/
theorem test_scalarInit_mt32 :
    (scalarInit (v := .mt32) 5489).take 4 = [0x00001571, 0x4D98EE96, 0xAF25F095, 0xAFD9BA96] := by decide
theorem test_scalarInit_mt64_last : readWord (scalarInit (v := .mt64) 5489) 311 = 0xC65AE95C45A5D796#64 := by
  decide +kernel

/-- Section 2.2: the first three iterations of phase 2 on the source's 32-bit key. -/
theorem test_pass1_trace :
    ((repeatTimes (Mix.pass1 [0x123#32, 0x234, 0x345, 0x456]) 3
      (⟨scalarInit (v := .mt32) 19650218, 1, 0⟩ : Mix .mt32)).t.drop 1).take 3
      = [0xFF890AD4, 0x9766A291, 0x21D3B988] := by decide
/-- Section 2.2: the first iteration of phase 3 on the source's 64-bit key, from the words the trace gives. -/
theorem test_pass2_trace :
    readWord (Mix.pass2 (⟨[0, 0x927C8F0A01A393EE, 0xC4C5103EFBCEED4C], 2, 0⟩ : Mix .mt64)).t 2
      = 0x20D8FFBDC1559D6E := by decide
/-- R84: the wrap of `i` copies the last word to index 0 and goes to 1. -/
theorem test_advanceI_wraps :
    (fun m : Mix .mt64 => (readWord m.t 0, m.i))
      (Mix.advanceI ⟨List.replicate 311 0 ++ [7], 311, 0⟩) = (7, 1) := by decide

/-- Section 2.3: the two rows that tell the 33/31 split of MT64 from the source's text. -/
theorem test_twistElem_mt64_bit31_of_a : twistElem (v := .mt64) 0x80000000 0 = 0x40000000 := by decide
theorem test_twistElem_mt64_bit31_of_b : twistElem (v := .mt64) 0 0x80000000 = 0 := by decide
theorem test_twistElem_mt32_ones : twistElem (v := .mt32) 0xFFFFFFFF 0xFFFFFFFF = 0xE6F74F20 := by decide
/-- Section 2.4. -/
theorem test_twist_first_word : readWord (twist (scalarInit (v := .mt64) 5489)) 0 = 0x245B1C66F2BDC210#64 := by
  decide +kernel
/-- Section 2.5. -/
theorem test_temper_mt32 : temper (v := .mt32) 0x12345678 = 0x2B7E4A2D := by decide
theorem test_temper_mt64 : temper (v := .mt64) 0x0123456789ABCDEF = 0x2254DA7001198660 := by decide

/-! ## One command on a small system -/

/-- An engine whose words are all `x`, with a key buffer of four entries 1, 2, 3, 4 of which `keyLen` are valid. -/
def engineOf (v : Variant) (x : Word v) (cursor keyLen : Nat) : Engine v :=
  ⟨List.replicate v.N x, cursor, [1, 2, 3, 4].map (BitVec.ofNat v.W), keyLen⟩

theorem engineOf_ok (v : Variant) (x : Word v) (cursor keyLen : Nat) (hc : cursor ≤ v.N + 1) (hk : keyLen ≤ 4) :
    (engineOf v x cursor keyLen).Ok 4 := ⟨List.length_replicate, hc, rfl, hk⟩

/-- Two MT32 instances and two MT64 instances, `KEY_MAX` = 4; instances 0 and 2 are at the given cursor and key length,
1 and 3 unseeded. -/
def small (target c32 c64 keyLen : Nat) (inputs : List Input) : State :=
  ⟨4, [⟨.mt32, engineOf .mt32 9 c32 keyLen⟩, ⟨.mt32, engineOf .mt32 5 625 0⟩,
       ⟨.mt64, engineOf .mt64 9 c64 keyLen⟩, ⟨.mt64, engineOf .mt64 5 313 0⟩], target, inputs, [], 0⟩

/-- What a command leaves of an instance: cursor, key length, the first words and the key, as numbers. -/
def leaves (d n : Nat) : Out → Option (Nat × Nat × List Nat × List Nat)
  | .next s => s.inst[d]?.map fun x =>
      (x.eng.cursor, x.eng.keyLen, (x.eng.words.take n).map BitVec.toNat, x.eng.key.map BitVec.toNat)
  | .fault _ => none
  | .refused _ => none

theorem test_seed_zero : leaves 1 3 (exec (.seed 0) (small 1 3 3 2 [])) =
    some (624, 0, [0, 1, 0x6C078967], [1, 2, 3, 4]) := by decide
theorem test_kclr_keeps_words : leaves 0 2 (exec .kclr (small 0 3 3 2 [])) = some (3, 0, [9, 9], [1, 2, 3, 4]) := by
  decide
theorem test_kpush_appends : leaves 2 1 (exec (.kpush 7) (small 2 3 3 2 [])) = some (3, 3, [9], [1, 2, 7, 4]) := by
  decide
theorem test_kpush_full_is_refused : lastAnswer (exec (.kpush 5) (small 0 3 3 4 [])) = some (0, 4, 0) := by decide
theorem test_seedk_empty_is_refused : lastAnswer (exec .seedk (small 1 3 3 0 [])) = some (1, 1, 0) := by decide
theorem test_next_inside_block : lastAnswer (exec .next (small 2 3 3 0 [])) =
    some (2, 0, (temper64 9).toNat) := by decide
theorem test_next_last_word_leaves_N : (leaves 0 0 (exec .next (small 0 623 3 0 []))).map Prod.fst = some 624 := by
  decide
theorem test_next32_unseeded : lastAnswer (exec .next32 (small 3 3 3 0 [])) = some (3, 2, 0) := by decide
theorem test_next32_on_unseeded_mt32_is_illegal : lastAnswer (exec .next32 (small 1 3 3 0 [])) = some (1, 3, 0) := by
  decide
/-- Section 2.10: the low half of the first native output after SEED 1. -/
theorem test_low32 : low32 (v := .mt64) 0x2245BD5FBB686F68 = 0x00000000BB686F68 := by decide
theorem test_rdcur : lastAnswer (exec .rdcur (small 0 3 8 0 [])) = some (0, 0, 3) := by decide
theorem test_clone_copies : leaves 1 1 (exec (.clone 0) (small 1 3 3 2 [])) = some (3, 0, [9], [1, 2, 3, 4]) := by
  decide
theorem test_clone_other_variant : lastAnswer (exec (.clone 0) (small 3 3 3 0 [])) = some (3, 5, 0) := by decide
theorem test_clone_unseeded_other_variant : lastAnswer (exec (.clone 3) (small 1 3 3 0 [])) = some (1, 5, 0) := by decide
theorem test_clone_no_such_source : lastAnswer (exec (.clone 4) (small 1 3 3 0 [])) = some (1, 5, 0) := by decide
theorem test_rst_unseeds : (leaves 0 0 (step (small 0 3 3 2 [.rst (some (0, 5))]))).map (fun r => (r.1, r.2.1)) =
    some (625, 0) := by decide

/-! ## Response words, assembler, bytes -/

theorem test_response_word : (Response.mk 1 .mt32 (.error .badOperand) 0).word = 0x500000000#36 := by decide
theorem test_parse_clone : parseLine "@1 CLONE 0 ; copy".toList = some ⟨1, .command (.clone 0)⟩ := by decide
theorem test_parse_seeda : parseLine "SEEDA 0x123, 0x234".toList = some ⟨0, .seeda [0x123, 0x234]⟩ := by decide
theorem test_parse_refuses_operand_of_next : parseLine "NEXT 3".toList = none := by decide
/-- R61, R71: `SEEDD` on MT32 is `0x0100001571`. -/
theorem test_assemble_seedd : assemble (small 0 3 3 0 []) ⟨0, .seedd⟩ = some [.command 0 0x0100001571] := by decide
/-- R70, R63: NEXT32 is admitted on MT32 too; its word is that of spec/95_test_vectors.md section 2.9. -/
theorem test_assemble_next32 : assemble (small 0 3 3 0 []) ⟨0, .command .next32⟩ = some [.command 0 0x0600000000] := by
  decide
/-- Log entry 20: a line for no port is refused; R70: so is a wide operand. -/
theorem test_assemble_refusals : assemble (small 0 3 3 0 []) ⟨4, .command .next⟩ = none ∧
    assemble (small 0 3 3 0 []) ⟨0, .seeda [1, 2 ^ 32]⟩ = none := by decide
theorem test_bytes : wordBytes (v := .mt32) 0xD091BB5C = [0x5C, 0xBB, 0x91, 0xD0] := by decide
/-- R53: five bytes take two words, and three bytes of the second are dropped. -/
theorem test_fill : ((engineOf .mt32 9 3 0).fill 5).toOption.map (fun r => (r.1.cursor, r.2.length)) = some (5, 5) := by
  decide

/-! ## Witnesses: for each statement, a state and operands that meet all its hypotheses -/

/-- The instances of `small`, as the statements name them. -/
theorem witness_target (c32 c64 k : Nat) (inp : List Input) :
    (small 0 c32 c64 k inp).inst[(small 0 c32 c64 k inp).target]? = some ⟨.mt32, engineOf .mt32 9 c32 k⟩ ∧
    (small 2 c32 c64 k inp).inst[(small 2 c32 c64 k inp).target]? = some ⟨.mt64, engineOf .mt64 9 c64 k⟩ := ⟨rfl, rfl⟩

theorem witness_DecodeOfEncodeIsIdentity :
    Instr.wellFormed .mt32 (.seed (2 ^ 32 - 1)) = true ∧ Instr.wellFormed .mt64 .next32 = true := by decide

theorem witness_DecodedCommandsAreWellFormed :
    decode .mt32 0x08FFFFFFFF#40 = .command (.clone (2 ^ 32 - 1)) ∧ decode .mt32 0x0500000001#40 = .command .next := by
  decide

theorem witness_OpcodeMapIsExact :
    (0x01FFFFFFFF#40).toNat / 2 ^ 32 = 0x01 ∧ (0x0600000000#40).toNat / 2 ^ 32 = 0x06 ∧
    (0x060000000000000000#72).toNat / 2 ^ 64 = 0x06 ∧ (0x08FFFFFFFF#40).toNat / 2 ^ 32 = 0x08 ∧
    (0x00FFFFFFFF#40).toNat / 2 ^ 32 = 0x00 ∧ 0x09 ≤ (0x0900000000#40).toNat / 2 ^ 32 := by decide

theorem witness_StepRunsDecodedCommand : ∃ (s : State) (d word : Nat) (rest : List Input) (v : Variant) (e : Engine v)
    (i : Instr), s.inputs = .command d word :: rest ∧ s.inst[d]? = some ⟨v, e⟩ ∧ word < 2 ^ (8 + v.W) ∧
    decode v (BitVec.ofNat (8 + v.W) word) = .command i :=
  ⟨small 0 3 3 0 [.command 2 0x060000000000000000], 2, 0x060000000000000000, [], .mt64, engineOf .mt64 9 3 0, .next32,
    rfl, rfl, by decide, by decide⟩

theorem witness_StepRefusesIllegalWord : ∃ (s : State) (d word : Nat) (rest : List Input) (e : Engine .mt32),
    s.inputs = .command d word :: rest ∧ s.inst[d]? = some ⟨.mt32, e⟩ ∧ word < 2 ^ 40 ∧ word / 2 ^ 32 = 6 :=
  ⟨small 0 3 3 0 [.command 0 0x0600000001], 0, 0x0600000001, [], engineOf .mt32 9 3 0, rfl, rfl, by decide, by decide⟩

theorem witness_StepRefusesIllegalWord_edges :
    0x00FFFFFFFF / 2 ^ 32 = 0 ∧ 9 ≤ 0x0900000000 / 2 ^ 32 ∧ 9 ≤ 0xFFFFFFFFFF / 2 ^ 32 ∧ 0xFFFFFFFFFF < 2 ^ 40 := by
  decide

theorem witness_IdleStepKeepsState : (small 0 3 3 0 []).inputs = [] := rfl

theorem witness_ResetUnseedsEveryInstance : ∃ (s : State) (q : Option (Nat × Nat)) (rest : List Input)
    (v : Variant) (e : Engine v), s.inputs = .rst q :: rest ∧ s.inst[3]? = some ⟨v, e⟩ :=
  ⟨small 0 3 3 0 [.rst (some (0, 0x0500000000))], _, [], .mt64, engineOf .mt64 5 313 0, rfl, rfl⟩

theorem witness_ResetStateValues : resetConfig.variants[3]? = some .mt64 := by decide

theorem witness_ScalarInitRecurrence : ∃ x : Word .mt64, 310 + 1 < Variant.mt64.N ∧
    (scalarInit (v := .mt64) 5489)[310]? = some x :=
  ⟨_, by decide, getElem?_eq_readWord (by rw [length_scalarInit]; decide)⟩

/-- An operand one above the largest MT32 word, on an MT32 instance. -/
theorem witness_WideOperandsActModuloWord : ¬ 2 ^ 32 < 2 ^ Variant.mt32.W ∧
    (small 0 3 3 2 []).inst[(small 0 3 3 2 []).target]? = some ⟨.mt32, engineOf .mt32 9 3 2⟩ := ⟨by decide, rfl⟩

/-- R53, log entry 19: a fill from an unseeded engine is refused, and one of no bytes is not. -/
theorem test_fill_unseeded :
    ((engineOf .mt32 9 625 0).fill 1).toOption = none ∧
    ((engineOf .mt32 9 625 0).fill 0).toOption.map Prod.snd = some [] := by decide

/-- KPUSH: a buffer with room for one more, and a full one. -/
theorem witness_KpushResult : (engineOf .mt32 9 3 3).keyLen ≠ (small 0 3 3 3 []).keyMax ∧
    (engineOf .mt32 9 3 4).keyLen = (small 0 3 3 4 []).keyMax := by decide

/-- SEEDK: a key of one word, and none. -/
theorem witness_SeedkResult : (engineOf .mt32 9 3 1).keyLen ≠ 0 ∧ (engineOf .mt32 9 3 0).keyLen = 0 := by decide

/-- NEXT: the last word of a block, the end of it, and the sentinel. -/
theorem witness_NextResult : (engineOf .mt32 9 623 0).cursor < Variant.mt32.N ∧
    (engineOf .mt32 9 624 0).cursor = Variant.mt32.N ∧ (engineOf .mt32 9 625 0).cursor = Variant.mt32.N + 1 := by decide

theorem witness_Next32Result : (engineOf .mt64 9 311 0).cursor < 312 ∧ (engineOf .mt64 9 312 0).cursor = 312 ∧
    (engineOf .mt64 9 313 0).cursor = 313 := by decide

/-- CLONE: no source, one of the other variant, an unseeded one, a seeded one. -/
theorem witness_CloneResult :
    (small 1 3 3 0 []).inst[(small 1 3 3 0 []).target]? = some ⟨.mt32, engineOf .mt32 5 625 0⟩ ∧
    (small 1 3 3 0 []).numInst ≤ 4 ∧
    (∃ x, (small 1 3 3 0 []).inst[2]? = some x ∧ x.variant ≠ .mt32) ∧
    (small 1 3 3 0 []).inst[1]? = some ⟨.mt32, engineOf .mt32 5 625 0⟩ ∧
    (engineOf .mt32 5 625 0).cursor = Variant.mt32.N + 1 ∧
    (small 1 3 3 0 []).inst[0]? = some ⟨.mt32, engineOf .mt32 9 3 0⟩ ∧
    (engineOf .mt32 9 3 0).cursor ≠ Variant.mt32.N + 1 :=
  ⟨rfl, by decide, ⟨_, rfl, by decide⟩, rfl, by decide, rfl, by decide⟩

/-- A system of `n + 1` instances, all like `x` but the first, which is MT32 and seeded. -/
def manyInsts (n : Nat) (x : Inst) : State :=
  ⟨4, ⟨.mt32, engineOf .mt32 9 3 0⟩ :: List.replicate n x, 0, [], [], 0⟩

theorem manyInsts_at (n i : Nat) (x : Inst) (h : i < n) : (manyInsts n x).inst[i + 1]? = some x := by
  simp [manyInsts, h]

/-- An operand of `2^W` on an MT32 port that names no instance, one of the other variant, an unseeded one, a seeded
one. -/
theorem witness_WideCloneOperandIsUsedAsItIs : ∃ src n : Nat, 2 ^ Variant.mt32.W ≤ src ∧
    (∀ x, (manyInsts n x).inst[(manyInsts n x).target]? = some ⟨.mt32, engineOf .mt32 9 3 0⟩) ∧
    (small 0 3 3 0 []).numInst ≤ src ∧
    (manyInsts n ⟨.mt64, engineOf .mt64 9 3 0⟩).inst[src]? = some ⟨.mt64, engineOf .mt64 9 3 0⟩ ∧
    (manyInsts n ⟨.mt32, engineOf .mt32 9 625 0⟩).inst[src]? = some ⟨.mt32, engineOf .mt32 9 625 0⟩ ∧
    (engineOf .mt32 9 625 0).cursor = Variant.mt32.N + 1 ∧
    (manyInsts n ⟨.mt32, engineOf .mt32 9 3 0⟩).inst[src]? = some ⟨.mt32, engineOf .mt32 9 3 0⟩ ∧
    (engineOf .mt32 9 3 0).cursor ≠ Variant.mt32.N + 1 := by
  obtain ⟨m, hm⟩ : ∃ m, m + 1 = 2 ^ Variant.mt32.W := ⟨2 ^ 32 - 1, by decide⟩
  have hlt : m < m + 1 := Nat.lt_succ_self m
  exact ⟨m + 1, m + 1, hm.ge, fun _ => rfl, by rw [hm]; decide, manyInsts_at _ _ _ hlt, manyInsts_at _ _ _ hlt,
    by decide, manyInsts_at _ _ _ hlt, by decide⟩

theorem witness_CloneOfItselfChangesNothing :
    (small 0 3 3 0 []).inst[(small 0 3 3 0 []).target]? = some ⟨.mt32, engineOf .mt32 9 3 0⟩ ∧
    (engineOf .mt32 9 3 0).cursor ≠ Variant.mt32.N + 1 := ⟨rfl, by decide⟩

/-- The sequence of written words of `ArrayInit`, for the witness below. -/
def mixSequence (v : Variant) (key : List (Word v)) (r : Nat) : Word v :=
  if r = 0 then readWord (scalarInit v.keyBaseSeed) 0
  else
    let before := mixSequence v key (r - 1)
    let old := if r < v.N then readWord (scalarInit v.keyBaseSeed) r else mixSequence v key (r - (v.N - 1))
    if r ≤ max v.N key.length then
      (old ^^^ ((before ^^^ (before >>> v.initShift)) * v.keyMult1)) + readWord key ((r - 1) % key.length)
        + BitVec.ofNat v.W ((r - 1) % key.length)
    else (old ^^^ ((before ^^^ (before >>> v.initShift)) * v.keyMult2)) - BitVec.ofNat v.W ((r - 1) % (v.N - 1) + 1)
  termination_by r
  decreasing_by
    all_goals first
      | omega
      | have := Variant_N_pos v; omega

theorem mixSequence_pos (v : Variant) (key : List (Word v)) (r : Nat) (h : r ≠ 0) :
    mixSequence v key r =
      let before := mixSequence v key (r - 1)
      let old := if r < v.N then readWord (scalarInit v.keyBaseSeed) r else mixSequence v key (r - (v.N - 1))
      if r ≤ max v.N key.length then
        (old ^^^ ((before ^^^ (before >>> v.initShift)) * v.keyMult1)) + readWord key ((r - 1) % key.length)
          + BitVec.ofNat v.W ((r - 1) % key.length)
      else (old ^^^ ((before ^^^ (before >>> v.initShift)) * v.keyMult2))
        - BitVec.ofNat v.W ((r - 1) % (v.N - 1) + 1) := by
  rw [mixSequence]
  simp [h]

/-- For every key there is a sequence that meets the hypotheses. -/
theorem witness_ArrayInitIsMixingRecurrence (v : Variant) (key : List (Word v)) : ∃ u : Nat → Word v,
    some (u 0) = (scalarInit v.keyBaseSeed)[0]? ∧
    (∀ (r : Nat) (old k : Word v), 1 ≤ r → r ≤ max v.N key.length →
      (if r < v.N then (scalarInit v.keyBaseSeed)[r]? else some (u (r - (v.N - 1)))) = some old →
      key[(r - 1) % key.length]? = some k →
      u r = (old ^^^ ((u (r - 1) ^^^ (u (r - 1) >>> v.initShift)) * v.keyMult1)) + k
        + BitVec.ofNat v.W ((r - 1) % key.length)) ∧
    (∀ r : Nat, max v.N key.length < r → r ≤ max v.N key.length + (v.N - 1) →
      u r = (u (r - (v.N - 1)) ^^^ ((u (r - 1) ^^^ (u (r - 1) >>> v.initShift)) * v.keyMult2))
        - BitVec.ofNat v.W ((r - 1) % (v.N - 1) + 1)) := by
  refine ⟨mixSequence v key, ?_, fun r old k h1 h2 ho hk => ?_, fun r h1 h2 => ?_⟩
  · rw [mixSequence]; rfl
  · rw [mixSequence_pos v key r (by omega)]
    have hold : (if r < v.N then readWord (scalarInit v.keyBaseSeed) r else mixSequence v key (r - (v.N - 1))) = old := by
      split
      · next hr => rw [if_pos hr] at ho; exact readWord_eq_of_getElem? ho
      · next hr => rw [if_neg hr] at ho; exact Option.some.inj ho
    simp [h2, hold, readWord_eq_of_getElem? hk]
  · rw [mixSequence_pos v key r (by omega)]
    have hr : ¬ r ≤ max v.N key.length := by omega
    have hn : ¬ r < v.N := by omega
    simp only [if_neg hr, if_neg hn]

theorem witness_SeedaSeedsFromItsKey : ∃ (s : State) (e : Engine .mt32) (key : List (Word .mt32)) (rest : List Input),
    s.inst[0]? = some ⟨.mt32, e⟩ ∧ e.key.length = s.keyMax ∧ key ≠ [] ∧ key.length ≤ s.keyMax ∧
    s.inputs = (AsmBody.seeda (key.map BitVec.toNat)).expand.map (fun i => .command 0 (encode .mt32 i).toNat) ++ rest :=
  ⟨small 0 3 3 2 ((AsmBody.seeda [1, 2, 3, 4]).expand.map fun i => .command 0 (encode .mt32 i).toNat),
    engineOf .mt32 9 3 2, [1, 2, 3, 4], [], rfl, by decide, by decide, by decide, by decide⟩

theorem witness_SeedaWithoutKeyIsRefused : ∃ (s : State) (e : Engine .mt64) (rest : List Input),
    s.inst[2]? = some ⟨.mt64, e⟩ ∧
    s.inputs = (AsmBody.seeda []).expand.map (fun i => .command 2 (encode .mt64 i).toNat) ++ rest :=
  ⟨small 0 3 3 2 ((AsmBody.seeda []).expand.map fun i => .command 2 (encode .mt64 i).toNat), engineOf .mt64 9 3 2, [],
    rfl, by decide⟩

/-- The two cases of the statement: SEED, and SEEDK with a key, on instances in different states. -/
theorem witness_SeedingDiscardsPriorState :
    (∃ s', exec (.seed 1) (small 0 3 3 2 []) = .next s') ∧ (∃ t', exec (.seed 1) (small 0 7 3 0 []) = .next t') ∧
    (engineOf .mt32 9 3 2).keyLen ≠ 0 ∧ (engineOf .mt32 9 3 2).keyLen = (engineOf .mt32 9 625 2).keyLen ∧
    (engineOf .mt32 9 3 2).key.take 2 = (engineOf .mt32 9 625 2).key.take 2 ∧
    (∃ s', exec .seedk (small 0 3 3 2 []) = .next s') ∧ (∃ t', exec .seedk (small 0 625 3 2 []) = .next t') :=
  ⟨⟨_, rfl⟩, ⟨_, rfl⟩, by decide, rfl, rfl, exec_answers _ (witness_target 3 3 2 []).1,
    exec_answers _ (witness_target 625 3 2 []).1⟩

theorem witness_LowBitsOfSeededWordZeroUnused : ∃ (ws : List (Word .mt64)) (x y : Word .mt64),
    ws.length = Variant.mt64.N ∧ ws[0]? = some x ∧ x ≠ y ∧ ∀ j, 31 ≤ j → x.getLsbD j = y.getLsbD j := by
  refine ⟨List.replicate 312 0, 0, 0x7FFFFFFF#64, List.length_replicate, rfl, by decide, fun j hj => ?_⟩
  by_cases h : j < 64
  · exact (by decide : ∀ j : Fin 64, 31 ≤ j.1 → (0#64).getLsbD j = (0x7FFFFFFF#64).getLsbD j) ⟨j, h⟩ hj
  · rw [BitVec.getLsbD_of_ge _ _ (Nat.not_lt.mp h), BitVec.getLsbD_of_ge _ _ (Nat.not_lt.mp h)]

/-- One index in each of the three groups of R102, at their edges. -/
theorem witness_TwistOrderFree : (List.replicate 624 (0 : Word .mt32)).length = Variant.mt32.N ∧
    226 < Variant.mt32.N - Variant.mt32.M ∧ (Variant.mt32.N - Variant.mt32.M ≤ 227 ∧ 622 < Variant.mt32.N - 1) ∧
    623 = Variant.mt32.N - 1 :=
  ⟨List.length_replicate, by decide, by decide, by decide⟩

theorem witness_ExtractionSequence : ∃ (s : State) (e : Engine .mt64) (narrow : List Bool) (rest : List Input),
    s.inst[2]? = some ⟨.mt64, e⟩ ∧ e.cursor = Variant.mt64.N ∧ narrow ≠ [] ∧
    s.inputs = narrow.map (fun b => .command 2 (encode .mt64 (if b then .next32 else .next)).toNat) ++ rest :=
  ⟨small 0 3 312 0 [.command 2 0x050000000000000000, .command 2 0x060000000000000000], engineOf .mt64 9 312 0,
    [false, true], [], rfl, rfl, by decide, by decide⟩

theorem witness_CloneIndependence : ∃ (s : State) (e b : Engine .mt64) (seq : List (Bool × Bool)) (rest : List Input),
    s.inst[3]? = some ⟨.mt64, e⟩ ∧ s.inst[2]? = some ⟨.mt64, b⟩ ∧ b.cursor ≠ Variant.mt64.N + 1 ∧
    s.inputs = .command 3 (encode .mt64 (.clone 2)).toNat ::
      seq.map (fun p => .command (if p.1 then 3 else 2) (encode .mt64 (if p.2 then .next32 else .next)).toNat) ++ rest ∧
    (seq.filter (fun p => p.1)).map Prod.snd = (seq.filter (fun p => !p.1)).map Prod.snd :=
  ⟨small 0 3 3 0 [.command 3 0x080000000000000002, .command 3 0x060000000000000000, .command 2 0x060000000000000000],
    engineOf .mt64 5 313 0, engineOf .mt64 9 3 0, [(true, true), (false, true)], [], rfl, rfl, by decide, by decide,
    by decide⟩

/-- A state in the invariant whose step answers a next state. -/
theorem witness_StepKeepsInvariant : (small 0 3 3 2 []).Inv ∧ ∃ t, step (small 0 3 3 2 []) = .next t := by
  refine ⟨⟨by decide, fun x hx => ?_, fun r hr => nomatch hr⟩, ⟨_, step_idle rfl⟩⟩
  rcases hx with _ | ⟨_, _ | ⟨_, _ | ⟨_, _ | ⟨_, h⟩⟩⟩⟩
  · exact engineOf_ok _ _ _ _ (by decide) (by decide)
  · exact engineOf_ok _ _ _ _ (by decide) (by decide)
  · exact engineOf_ok _ _ _ _ (by decide) (by decide)
  · exact engineOf_ok _ _ _ _ (by decide) (by decide)
  · cases h

theorem witness_InvariantHoldsAtReset : resetConfig.Legal := by decide

theorem witness_RefusedCommandChangesNothing : ∃ t, step (small 0 3 3 0 [.command 1 0x0500000000]) = .next t ∧
    ∃ r, t.responses = [r] ∧ r.status ≠ .ok := ⟨_, rfl, _, rfl, by decide⟩

/-- One refusal of each kind. -/
theorem witness_RefusalCausesAreExact :
    lastAnswer (exec .seedk (small 0 3 3 0 [])) = some (0, 1, 0) ∧
    lastAnswer (exec .next (small 0 625 3 0 [])) = some (0, 2, 0) ∧
    lastAnswer (exec .next32 (small 0 3 3 0 [])) = some (0, 3, 0) ∧
    lastAnswer (exec (.kpush 1) (small 0 3 3 4 [])) = some (0, 4, 0) ∧
    lastAnswer (exec (.clone 2) (small 0 3 3 0 [])) = some (0, 5, 0) := by decide

/-- A command that answers, with its instance before and after: for the frame, the key buffer, the cursor. -/
theorem witness_frames : ∃ (t : State) (e' : Engine .mt32) (r : Response),
    exec (.kpush 7) (small 0 3 3 2 []) = .next t ∧
    (small 0 3 3 2 []).inst[(small 0 3 3 2 []).target]? = some ⟨.mt32, engineOf .mt32 9 3 2⟩ ∧
    t.inst[(small 0 3 3 2 []).target]? = some ⟨.mt32, e'⟩ ∧ t.responses = (small 0 3 3 2 []).responses ++ [r] ∧
    (engineOf .mt32 9 3 2).cursor ≤ Variant.mt32.N + 1 := ⟨_, _, _, rfl, rfl, rfl, rfl, by decide⟩

/-- The three parts: a step on a seeded instance; an unseeded instance that a SEED seeds. -/
theorem witness_SeededUntilReset :
    (∃ t, step (small 0 3 3 0 [.command 0 0x0700000000]) = .next t ∧
      (∀ q rest, (small 0 3 3 0 [.command 0 0x0700000000]).inputs ≠ .rst q :: rest) ∧
      (engineOf .mt32 9 3 0).cursor ≠ Variant.mt32.N + 1) ∧
    ∃ (t : State) (e' : Engine .mt32) (r : Response), exec (.seed 1) (small 0 625 3 0 []) = .next t ∧
      t.inst[(small 0 625 3 0 []).target]? = some ⟨.mt32, e'⟩ ∧ t.responses = [r] ∧ r.status = .ok ∧
      (engineOf .mt32 9 625 0).cursor = Variant.mt32.N + 1 ∧ e'.cursor ≠ Variant.mt32.N + 1 :=
  ⟨⟨_, rfl, (fun _ _ h => by cases h), by decide⟩, ⟨_, _, _, rfl, rfl, rfl, rfl, rfl, by decide⟩⟩

theorem witness_PresentableInputsNeverStop :
    ∀ inp rest, (small 0 3 3 0 [.command 0 0xFFFFFFFFFF, .rst none]).inputs = inp :: rest →
      inp.Legal (small 0 3 3 0 [.command 0 0xFFFFFFFFFF, .rst none]) := by
  intro inp rest h
  cases h
  exact ⟨_, rfl, by decide⟩

theorem witness_StepKeepsConfiguration : ∃ t, step (small 0 3 3 0 [.rst none]) = .next t := ⟨_, rfl⟩

/-- The same engine as instance 0 of two systems that differ elsewhere. -/
theorem witness_CommandDependsOnItsInstanceOnly : ∃ s', (∀ src, Instr.next ≠ .clone src) ∧
    (small 0 3 3 0 []).inst[(small 0 3 3 0 []).target]? = some ⟨.mt32, engineOf .mt32 9 3 0⟩ ∧
    (small 0 3 9 0 []).inst[(small 0 3 9 0 []).target]? = some ⟨.mt32, engineOf .mt32 9 3 0⟩ ∧
    (small 0 3 3 0 []).keyMax = (small 0 3 9 0 []).keyMax ∧ exec .next (small 0 3 3 0 []) = .next s' :=
  ⟨_, (fun _ h => by cases h), rfl, rfl, rfl, rfl⟩

theorem witness_CommandsToDifferentInstancesCommute : ∃ a b, (0 : Nat) ≠ 2 ∧
    exec .next { small 0 3 3 0 [] with target := 0 } = .next a ∧ exec (.kpush 1) { a with target := 2 } = .next b :=
  ⟨_, _, by decide, rfl, rfl⟩

/-- Two different states that differ only in the words of an unseeded instance, and a run of one of them. -/
theorem witness_CellsWithoutValueAreNeverObserved : ∃ s t s' : State, s ≠ t ∧ State.Same s t ∧
    Host.Core.run Sys2Proof.core 1 s = .next s' := by
  refine ⟨⟨4, [⟨.mt32, engineOf .mt32 1 625 0⟩], 0, [], [], 0⟩, ⟨4, [⟨.mt32, engineOf .mt32 2 625 0⟩], 0, [], [], 0⟩,
    _, by decide, ⟨rfl, ?_, rfl, rfl, rfl⟩, rfl⟩
  refine .cons ⟨.mt32, _, _, rfl, rfl, rfl, rfl, rfl, rfl, fun h => ?_⟩ .nil
  cases h

/-- A line whose operand is the widest the port takes, one whose second operand is the first it does not, and a line for
the first port that does not exist. -/
theorem witness_AssemblerAcceptsExactly :
    (∃ x, (small 0 3 3 0 []).inst[0]? = some x ∧
      (∀ i ∈ (AsmBody.seeda [2 ^ 32 - 1]).expand, i.operandFits x.variant = true) ∧
      (∃ i ∈ (AsmBody.seeda [1, 2 ^ 32]).expand, i.operandFits x.variant = false)) ∧
    (small 0 3 3 0 []).inst[4]? = none :=
  ⟨⟨_, rfl, by decide, by decide⟩, rfl⟩

/-- A line of commands, and NEXT32 for an MT32 port. -/
theorem witness_AssembledLinesDecode_mt32 : ∃ ins, assemble (small 0 3 3 0 []) ⟨0, .command .next32⟩ = some ins := ⟨_, rfl⟩

theorem witness_AssembledLinesDecode : ∃ ins, assemble (small 0 3 3 0 []) ⟨2, .seeda [1, 2]⟩ = some ins := ⟨_, rfl⟩

theorem witness_TwistElemBits : 63 < Variant.mt64.W ∧ 30 < Variant.mt64.W := by decide

end Sys2Proof.Tests
end

section
/-! PROOFS. The scope of the system (spec/00_scope.md): every step keeps the build parameters (R2, R5) and the invariant
(R21, R24, R25, R62). Both go by the four things a step can do (`step_cases`), each with a lemma of its own here. -/

namespace Sys2Proof.Machine

/-! ## The build parameters under each update of the state -/

@[simp] theorem State.respond_config (s : State) (v : Variant) (st : Status) (x : Word v) :
    (s.respond v st x).config = s.config := rfl
@[simp] theorem State.raise_config (s : State) (v : Variant) (err : Error) : (s.raise v err).config = s.config := rfl
@[simp] theorem State.present_config (s : State) (d : Nat) (r : List Input) : (s.present d r).config = s.config := rfl

/-- The target's engine is replaced by one of the same variant, which changes no build parameter. -/
theorem State.setTarget_config {s : State} {v : Variant} {e : Engine v} (e' : Engine v)
    (ht : s.inst[s.target]? = some ⟨v, e⟩) : (s.setTarget ⟨v, e'⟩).config = s.config := by
  simp [State.config, map_variant_set e' ht]

theorem exec_keeps_config {i : Instr} {s t : State} (h : exec i s = .next t) : t.config = s.config := by
  obtain ⟨v, e, ht, ⟨e', x, -, rfl⟩ | ⟨err, -, rfl⟩⟩ := exec_cases h
  · rw [State.respond_config, State.setTarget_config e' ht]
  · rw [State.raise_config]

/-- R160: reset rebuilds every engine in its own variant. -/
theorem resetEvent_keeps_config {s t : State} (h : resetEvent s = .next t) : t.config = s.config := by
  cases h
  simp [State.config]

theorem step_keeps_config {s t : State} (h : step s = .next t) : t.config = s.config := by
  obtain ⟨-, rfl⟩ | ⟨d, word, rest, x, i, -, -, -, he⟩ | ⟨d, word, rest, x, why, -, -, -, rfl⟩ | ⟨q, rest, -, hr⟩ :=
    step_cases h
  · rfl
  · rw [exec_keeps_config he, State.present_config]
  · rw [State.raise_config, State.present_config]
  · exact resetEvent_keeps_config (s := { s with inputs := rest }) hr

/-! ## The invariant under each update of the state -/

/-- Taking an input touches nothing the invariant speaks of. -/
theorem State.present_keeps_inv {s : State} (d : Nat) (rest : List Input) (hs : s.Inv) : (s.present d rest).Inv := hs

/-- R62: a response that is `OK` or has zero data may be returned. -/
theorem State.respond_keeps_inv {s : State} {v : Variant} {st : Status} {x : Word v} (hs : s.Inv)
    (hr : st = .ok ∨ x = 0) : (s.respond v st x).Inv := by
  obtain ⟨hlegal, hinst, hresp⟩ := hs
  refine ⟨hlegal, hinst, fun r hmem => ?_⟩
  rcases List.mem_append.mp hmem with hold | hnew
  · exact hresp r hold
  · cases List.mem_singleton.mp hnew
    exact hr

/-- R130: a refusal has zero data. -/
theorem State.raise_keeps_inv {s : State} (v : Variant) (err : Error) (hs : s.Inv) : (s.raise v err).Inv :=
  State.respond_keeps_inv hs (.inr rfl)

/-- The target may be given any engine of its variant that is in its ranges. -/
theorem State.setTarget_keeps_inv {s : State} {v : Variant} {e e' : Engine v} (hs : s.Inv)
    (ht : s.inst[s.target]? = some ⟨v, e⟩) (he' : e'.Ok s.keyMax) : (s.setTarget ⟨v, e'⟩).Inv := by
  obtain ⟨hlegal, hinst, hresp⟩ := hs
  refine ⟨State.setTarget_config e' ht ▸ hlegal, fun y hy => ?_, hresp⟩
  rcases List.mem_or_eq_of_mem_set hy with hold | rfl
  · exact hinst y hold
  · exact he'

/-- A command either completes with an engine in its ranges (`effect_keeps_ok`) or is refused. -/
theorem exec_keeps_inv {i : Instr} {s t : State} (hs : s.Inv) (h : exec i s = .next t) : t.Inv := by
  obtain ⟨v, e, ht, ⟨e', x, hf, rfl⟩ | ⟨err, -, rfl⟩⟩ := exec_cases h
  · have hinst : ∀ y ∈ s.inst, y.eng.Ok s.keyMax := hs.2.1
    have he' : e'.Ok s.keyMax := effect_keeps_ok hinst (hinst _ (List.mem_of_getElem? ht)) hf
    exact State.respond_keeps_inv (State.setTarget_keeps_inv hs ht he') (.inl rfl)
  · exact State.raise_keeps_inv v err hs

/-- R160: after reset every engine is a reset engine, and the responses given stay. -/
theorem resetEvent_keeps_inv {s t : State} (hs : s.Inv) (h : resetEvent s = .next t) : t.Inv := by
  have hconfig := resetEvent_keeps_config h
  obtain ⟨hlegal, -, hresp⟩ := hs
  cases h
  refine ⟨hconfig ▸ hlegal, fun y hy => ?_, hresp⟩
  obtain ⟨v, j, rfl⟩ := mem_resetInsts hy
  exact Engine.reset_ok v s.keyMax (s.resets + 1) j

theorem step_keeps_inv {s t : State} (hs : s.Inv) (h : step s = .next t) : t.Inv := by
  obtain ⟨-, rfl⟩ | ⟨d, word, rest, x, i, -, -, -, he⟩ | ⟨d, word, rest, x, why, -, -, -, rfl⟩ | ⟨q, rest, -, hr⟩ :=
    step_cases h
  · exact hs
  · exact exec_keeps_inv (State.present_keeps_inv d rest hs) he
  · exact State.raise_keeps_inv x.variant .illegalCommand (State.present_keeps_inv d rest hs)
  · exact resetEvent_keeps_inv (s := { s with inputs := rest }) hs hr

/-! ## The obligations -/

/-- Settles O33, by the four things a step can do. -/
theorem stepKeepsInvariant : Obligations.StepKeepsInvariant := by
  unfold Obligations.StepKeepsInvariant
  exact fun _ _ hs h => step_keeps_inv hs h

/-- Settles O42, by the same four cases. -/
theorem stepKeepsConfiguration : Obligations.StepKeepsConfiguration := by
  unfold Obligations.StepKeepsConfiguration
  exact fun _ _ h => step_keeps_config h

end Sys2Proof.Machine
end

section
/-! PROOFS. Cells that hold no value are never observed (spec/10_state.md R25, R26, R29;
spec/93_implementation_defined.md U1, U4). `State.Same` is carried through a run from the inside out: each engine effect
answers same engines alike, so does a transaction, so does whatever a step takes from the inputs, so does a run. -/

namespace Sys2Proof.Machine

/-! ## Same engines answer alike -/

/-- Two answers of an engine effect a host cannot tell apart: the same refusal, or the same data and engines that are
again the same but for cells without a value. -/
inductive AnswersAlike {v : Variant} :
    Except Error (Engine v × Word v) → Except Error (Engine v × Word v) → Prop where
  | ok {a b : Engine v} (x : Word v) (h : a.Same b) : AnswersAlike (.ok (a, x)) (.ok (b, x))
  | error (err : Error) : AnswersAlike (.error err) (.error err)

section
variable {v : Variant} {a b : Engine v}

/-- The same function of the data of both answers. -/
theorem AnswersAlike.map {p q : Except Error (Engine v × Word v)} (h : AnswersAlike p q) (g : Word v → Word v) :
    AnswersAlike (p.map fun r => (r.1, g r.2)) (q.map fun r => (r.1, g r.2)) := by
  cases h with
  | ok x hab => exact .ok (g x) hab
  | error err => exact .error err

theorem Engine.Same.seeded_eq (h : a.Same b) : a.seeded = b.seeded := by
  unfold Engine.seeded; rw [h.1]

/-- R81, R85: a seeding gives every word a value that depends on the key cells alone. -/
theorem Engine.Same.seeding (h : a.Same b) (ws : List (Word v)) (c : Nat) :
    Engine.Same { a with words := ws, cursor := c } { b with words := ws, cursor := c } := by
  obtain ⟨-, hlen, hsize, htake, -⟩ := h
  exact ⟨rfl, hlen, hsize, htake, fun _ => rfl⟩

theorem Engine.Same.seed_alike (h : a.Same b) (arg : Nat) : AnswersAlike (a.seed arg) (b.seed arg) :=
  .ok 0 (h.seeding _ _)

theorem Engine.Same.kclr_alike (h : a.Same b) : AnswersAlike a.kclr b.kclr := by
  obtain ⟨hcur, -, hsize, -, hwords⟩ := h
  exact .ok 0 ⟨hcur, rfl, hsize, rfl, hwords⟩

/-- The cells below `k + 1` after a write at `k` are those below `k`, and the one written if the list has it. -/
theorem take_writeWord_succ {ws us : List (Word v)} {k : Nat} (x : Word v) (hsize : ws.length = us.length)
    (htake : ws.take k = us.take k) : (writeWord ws k x).take (k + 1) = (writeWord us k x).take (k + 1) := by
  have hcell : (writeWord ws k x)[k]? = (writeWord us k x)[k]? := by
    simp [writeWord, List.getElem?_set, hsize]
  rw [List.take_add_one, List.take_add_one, hcell, writeWord, writeWord, List.take_set_of_le (Nat.le_refl k),
    List.take_set_of_le (Nat.le_refl k), htake]

theorem Engine.Same.kpush_alike (h : a.Same b) (keyMax arg : Nat) :
    AnswersAlike (a.kpush keyMax arg) (b.kpush keyMax arg) := by
  obtain ⟨hcur, hlen, hsize, htake, hwords⟩ := h
  have hfull : a.keyFull keyMax = b.keyFull keyMax := by unfold Engine.keyFull; rw [hlen]
  unfold Engine.kpush
  rw [hfull]
  split
  · exact .error _
  · refine .ok 0 ⟨hcur, congrArg (· + 1) hlen, by simpa using hsize, ?_, hwords⟩
    rw [hlen] at htake ⊢
    exact take_writeWord_succ _ hsize htake

/-- R85: SEEDK reads the valid key cells only. -/
theorem Engine.Same.seedk_alike (h : a.Same b) : AnswersAlike a.seedk b.seedk := by
  obtain ⟨-, hlen, -, htake, -⟩ := id h
  have hempty : a.keyEmpty = b.keyEmpty := by unfold Engine.keyEmpty; rw [hlen]
  unfold Engine.seedk
  rw [hempty, htake]
  split
  · exact .error _
  · exact .ok 0 (h.seeding _ _)

/-- R105: before an extraction, twisted or not, the same words and the same cursor stay so. -/
theorem Engine.Same.ready_eq (h : a.Same b) (hwords : a.words = b.words) :
    a.ready.words = b.ready.words ∧ a.ready.cursor = b.ready.cursor := by
  have hdue : a.twistDue = b.twistDue := by unfold Engine.twistDue; rw [h.1]
  unfold Engine.ready
  rw [hdue]
  split
  · exact ⟨congrArg Sys2Proof.Machine.twist hwords, rfl⟩
  · exact ⟨hwords, h.1⟩

/-- R105: an extraction reads the words of a seeded engine only, where the two engines have the same. -/
theorem Engine.Same.extract_alike (h : a.Same b) : AnswersAlike a.extract b.extract := by
  obtain ⟨-, hlen, hsize, htake, hwords⟩ := id h
  unfold Engine.extract
  rw [h.seeded_eq]
  split
  · next hs =>
    obtain ⟨hrw, hrc⟩ := h.ready_eq (hwords (h.seeded_eq ▸ hs))
    rw [hrw, hrc]
    exact .ok _ ⟨rfl, by simpa using hlen, by simpa using hsize, by simpa using htake, fun _ => hrw⟩
  · exact .error _

theorem Engine.Same.next32_alike (h : a.Same b) : AnswersAlike a.next32 b.next32 := by
  cases v with
  | mt32 => exact .error _
  | mt64 => exact h.extract_alike.map low32

theorem Engine.Same.rdcur_alike (h : a.Same b) : AnswersAlike a.rdcur b.rdcur := by
  unfold Engine.rdcur
  rw [h.1]
  exact .ok _ h

theorem Engine.Same.copyFrom (h : a.Same b) {x y : Engine v} (hs : x.Same y) (hseeded : x.seeded = true) :
    (a.copyFrom x).Same (b.copyFrom y) := by
  obtain ⟨-, hlen, hsize, htake, -⟩ := h
  obtain ⟨hcur, -, -, -, hwords⟩ := hs
  exact ⟨hcur, hlen, hsize, htake, fun _ => hwords hseeded⟩

/-- R121: CLONE copies the words of a seeded source only. -/
theorem Engine.Same.clone_alike (h : a.Same b) {p q : Option Inst} (hsrc : Option.Rel Inst.Same p q) :
    AnswersAlike (a.clone p) (b.clone q) := by
  cases hsrc with
  | none => exact .error _
  | some hxy =>
    obtain ⟨u, x, y, rfl, rfl, hs⟩ := hxy
    unfold Engine.clone
    dsimp only
    split
    · next hu =>
      subst hu
      rw [hs.seeded_eq]
      split
      · next hseeded => exact .ok 0 (h.copyFrom hs (hs.seeded_eq.trans hseeded))
      · exact .error _
    · exact .error _

end

/-! ## Same states -/

/-- Every outcome `o` that is a next state is matched by `p`, up to cells without a value. -/
def Follows (o p : Out) : Prop := ∀ s', o = .next s' → ∃ t', p = .next t' ∧ s'.Same t'

theorem Follows.next {s t : State} (h : s.Same t) : Follows (.next s) (.next t) := by
  rintro s' ⟨⟩
  exact ⟨t, rfl, h⟩

theorem Follows.fault (r : Fault) (p : Out) : Follows (.fault r) p := nofun

/-- A number names two instances that are the same, one in each list, or none in either. -/
theorem forall₂_same_getElem? {l m : List Inst} (h : List.Forall₂ Inst.Same l m) (d : Nat) :
    Option.Rel Inst.Same l[d]? m[d]? := by
  induction h generalizing d with
  | nil => exact .none
  | cons hxy _ ih =>
    cases d with
    | zero => exact .some hxy
    | succ d => exact ih d

theorem forall₂_same_set {l m : List Inst} (h : List.Forall₂ Inst.Same l m) (d : Nat) {x y : Inst} (hxy : x.Same y) :
    List.Forall₂ Inst.Same (l.set d x) (m.set d y) := by
  induction h generalizing d with
  | nil => exact .nil
  | cons hzw hrest ih =>
    cases d with
    | zero => exact .cons hxy hrest
    | succ d => exact .cons hzw (ih d)

theorem forall₂_same_variants {l m : List Inst} (h : List.Forall₂ Inst.Same l m) :
    l.map Inst.variant = m.map Inst.variant := by
  induction h with
  | nil => rfl
  | cons hxy _ ih =>
    obtain ⟨v, a, b, rfl, rfl, -⟩ := hxy
    simp [ih]

/-- R29: two resets of one system, whatever free values they pick. -/
theorem resetInsts_same (keyMax m n d : Nat) (vs : List Variant) :
    List.Forall₂ Inst.Same (resetInsts keyMax m d vs) (resetInsts keyMax n d vs) := by
  induction vs generalizing d with
  | nil => exact .nil
  | cons v vs ih =>
    refine .cons ⟨v, _, _, rfl, rfl, rfl, rfl, by simp, rfl, fun hs => ?_⟩ (ih (d + 1))
    rw [Engine.reset_unseeded] at hs
    cases hs

section
variable {s t : State}

theorem State.Same.present (h : s.Same t) (d : Nat) (rest : List Input) : (s.present d rest).Same (t.present d rest) := by
  obtain ⟨hmax, hinst, -, -, hresp⟩ := h
  exact ⟨hmax, hinst, rfl, rfl, hresp⟩

theorem State.Same.respond (h : s.Same t) (v : Variant) (st : Status) (x : Word v) :
    (s.respond v st x).Same (t.respond v st x) := by
  obtain ⟨hmax, hinst, htgt, hin, hresp⟩ := h
  exact ⟨hmax, hinst, htgt, hin, by simp [htgt, hresp]⟩

theorem State.Same.setTarget (h : s.Same t) {x y : Inst} (hxy : x.Same y) : (s.setTarget x).Same (t.setTarget y) := by
  obtain ⟨hmax, hinst, htgt, hin, hresp⟩ := h
  exact ⟨hmax, by simpa [htgt] using forall₂_same_set hinst t.target hxy, htgt, hin, hresp⟩

/-- The targets of the two states: missing, or the same but for cells without a value. -/
theorem State.Same.target_cases (h : s.Same t) :
    s.inst[s.target]? = none ∨ ∃ (v : Variant) (a b : Engine v),
      s.inst[s.target]? = some ⟨v, a⟩ ∧ t.inst[t.target]? = some ⟨v, b⟩ ∧ a.Same b := by
  obtain ⟨-, hinst, htgt, -, -⟩ := h
  have hrel := forall₂_same_getElem? hinst s.target
  rw [← htgt]
  generalize s.inst[s.target]? = p, t.inst[s.target]? = q at hrel ⊢
  cases hrel with
  | none => exact .inl rfl
  | some hxy =>
    obtain ⟨v, a, b, rfl, rfl, hab⟩ := hxy
    exact .inr ⟨v, a, b, rfl, rfl, hab⟩

/-! ## Commands, steps and runs from same states -/

/-- Every command answers same engines alike. -/
theorem State.Same.effect_alike (h : s.Same t) (i : Instr) {v : Variant} {a b : Engine v} (hab : a.Same b) :
    AnswersAlike (effect s i v a) (effect t i v b) := by
  obtain ⟨hmax, hinst, -, -, -⟩ := h
  cases i with
  | seed arg => exact hab.seed_alike arg
  | kclr => exact hab.kclr_alike
  | kpush arg => simpa only [effect, hmax] using hab.kpush_alike t.keyMax arg
  | seedk => exact hab.seedk_alike
  | next => exact hab.extract_alike
  | next32 => exact hab.next32_alike
  | rdcur => exact hab.rdcur_alike
  | clone src => exact hab.clone_alike (forall₂_same_getElem? hinst src)

theorem transact_follows (h : s.Same t) {f g : (v : Variant) → Engine v → Except Error (Engine v × Word v)}
    (hfg : ∀ (v : Variant) (a b : Engine v), a.Same b → AnswersAlike (f v a) (g v b)) :
    Follows (transact s f) (transact t g) := by
  obtain hnone | ⟨v, a, b, ha, hb, hab⟩ := h.target_cases
  · simp only [transact, hnone]
    exact .fault _ _
  · have hans := hfg v a b hab
    generalize hfa : f v a = p, hgb : g v b = q at hans
    cases hans with
    | ok x hab' =>
      rw [transact_eq_ok ha hfa, transact_eq_ok hb hgb]
      exact .next ((h.setTarget ⟨v, _, _, rfl, rfl, hab'⟩).respond v .ok x)
    | error err =>
      rw [transact_eq_error ha hfa, transact_eq_error hb hgb]
      exact .next (h.respond v (.error err) 0)

theorem exec_follows (h : s.Same t) (i : Instr) : Follows (exec i s) (exec i t) := by
  rw [exec_eq_transact, exec_eq_transact]
  exact transact_follows h fun _ _ _ hab => h.effect_alike i hab

theorem runWord_follows (h : s.Same t) (v : Variant) (cw : CommandWord v) :
    Follows (runWord s v cw) (runWord t v cw) := by
  unfold runWord
  cases decode v cw with
  | command i => exact exec_follows h i
  | illegal why => exact .next (h.respond v (.error .illegalCommand) 0)

theorem transaction_follows (h : s.Same t) (word : Nat) : Follows (transaction s word) (transaction t word) := by
  obtain hnone | ⟨v, a, b, ha, hb, -⟩ := h.target_cases
  · simp only [transaction, hnone]
    exact .fault _ _
  · simp only [transaction, ha, hb]
    split
    · exact runWord_follows h v _
    · exact .fault _ _

theorem resetEvent_follows (h : s.Same t) : Follows (resetEvent s) (resetEvent t) := by
  obtain ⟨hmax, hinst, htgt, hin, hresp⟩ := h
  refine .next ⟨hmax, ?_, htgt, hin, hresp⟩
  rw [forall₂_same_variants hinst, hmax]
  exact resetInsts_same _ _ _ _ _

theorem step_follows (h : s.Same t) : Follows (step s) (step t) := by
  obtain ⟨hmax, hinst, htgt, hin, hresp⟩ := id h
  cases hs : s.inputs with
  | nil =>
    rw [step_idle hs, step_idle (hin ▸ hs)]
    exact .next h
  | cons input rest =>
    cases input with
    | command d word =>
      rw [step_command hs, step_command (hin ▸ hs)]
      exact transaction_follows (h.present d rest) word
    | rst inFlight =>
      rw [step_rst hs, step_rst (hin ▸ hs)]
      exact resetEvent_follows ⟨hmax, hinst, htgt, rfl, hresp⟩

end

theorem run_succ_of_step {s t : State} (n : Nat) (h : step s = .next t) :
    Host.Core.run Sys2Proof.core (n + 1) s = Host.Core.run Sys2Proof.core n t := by
  have h' : Sys2Proof.core.step s = .next t := h
  simp only [Host.Core.run, h']

/-- A run of at least one step that comes to an end: the first step, and the rest. -/
theorem run_succ_cases {n : Nat} {s u : State} (h : Host.Core.run Sys2Proof.core (n + 1) s = .next u) :
    ∃ t, step s = .next t ∧ Host.Core.run Sys2Proof.core n t = .next u := by
  simp only [Host.Core.run] at h
  split at h
  · next t ht => exact ⟨t, ht, h⟩
  · cases h
  · cases h

/-- Settles O45, by induction on the number of steps. -/
theorem cellsWithoutValueAreNeverObserved : Obligations.CellsWithoutValueAreNeverObserved := by
  unfold Obligations.CellsWithoutValueAreNeverObserved
  intro n
  induction n with
  | zero =>
    rintro s t s' h ⟨⟩
    exact ⟨t, rfl, h⟩
  | succ n ih =>
    intro s t s' h hrun
    obtain ⟨s₁, hs, hrest⟩ := run_succ_cases hrun
    obtain ⟨t₁, ht, h₁⟩ := step_follows h s₁ hs
    rw [run_succ_of_step n ht]
    exact ih s₁ t₁ s' h₁ hrest

end Sys2Proof.Machine
end

section
/-! PROOFS. What one command changes and what it leaves (spec/10_state.md R22, R23, R25, R27, R30, R46). A command that
succeeds leaves its engine as `Completes` says; one that is refused leaves it as it is. Everything here about the key
buffer, the cursor and the seeded condition is read off these two. -/

namespace Sys2Proof.Machine

/-! ## What a command leaves of its engine -/

/-- What a command that succeeds in state `s` makes of the engine `e` it is sent to: `e'`. -/
def Completes (s : State) {v : Variant} (e e' : Engine v) : Instr → Prop
  | .seed arg => e' = { e with words := scalarInit (operandWord v arg), cursor := v.N }
  | .kclr => e' = { e with keyLen := 0 }
  | .kpush arg => e' = { e with key := writeWord e.key e.keyLen (operandWord v arg), keyLen := e.keyLen + 1 }
  | .seedk => e' = { e with words := arrayInit (e.key.take e.keyLen), cursor := v.N }
  | .next | .next32 => e.cursor ≠ v.N + 1 ∧ e' = { e.ready with cursor := e.ready.cursor + 1 }
  | .rdcur => e' = e
  | .clone src => ∃ b : Engine v, s.inst[src]? = some ⟨v, b⟩ ∧ b.cursor ≠ v.N + 1 ∧ e' = e.copyFrom b

section
variable {s t : State} {i : Instr} {v : Variant} {e e' : Engine v}

theorem Engine.extract_ok_cursor {x : Word v} (h : e.extract = .ok (e', x)) :
    e.cursor ≠ v.N + 1 ∧ e' = { e.ready with cursor := e.ready.cursor + 1 } := by
  obtain ⟨hs, he', -⟩ := Engine.extract_ok h
  exact ⟨(Engine.seeded_iff e).mp hs, he'⟩

theorem effect_completes {x : Word v} (h : effect s i v e = .ok (e', x)) : Completes s e e' i := by
  cases i with
  | seed arg => cases h; rfl
  | kclr => cases h; rfl
  | kpush arg => exact (Engine.kpush_ok h).2.2
  | seedk => exact (Engine.seedk_ok h).2.2
  | next => exact Engine.extract_ok_cursor h
  | next32 =>
    obtain ⟨-, y, hy, -⟩ := Engine.next32_ok h
    exact Engine.extract_ok_cursor hy
  | rdcur => cases h; rfl
  | clone src =>
    obtain ⟨b, hb, hs, he', -⟩ := Engine.clone_ok h
    exact ⟨b, hb, (Engine.seeded_iff b).mp hs, he'⟩

theorem exec_target_exists (h : exec i s = .next t) (hs : s.inst[s.target]? = some ⟨v, e⟩) :
    ∃ e' : Engine v, t.inst[s.target]? = some ⟨v, e'⟩ := by
  obtain ⟨w, f, hf, ⟨f', x, -, rfl⟩ | ⟨err, -, rfl⟩⟩ := exec_cases h
  · cases hs.symm.trans hf
    exact ⟨f', getElem?_set_target _ hs⟩
  · exact ⟨e, hs⟩

/-- The target after a command, and its response: a success, or a refusal that left the engine alone. -/
theorem exec_target_cases (h : exec i s = .next t) (hs : s.inst[s.target]? = some ⟨v, e⟩)
    (ht : t.inst[s.target]? = some ⟨v, e'⟩) :
    ∃ r : Response, t.responses = s.responses ++ [r] ∧
      (r.status = .ok ∧ Completes s e e' i ∨ r.status ≠ .ok ∧ e' = e) := by
  obtain ⟨w, f, hf, ⟨f', x, hok, rfl⟩ | ⟨err, -, rfl⟩⟩ := exec_cases h
  · cases hs.symm.trans hf
    have hset : (s.inst.set s.target ⟨v, f'⟩)[s.target]? = some ⟨v, e'⟩ := ht
    cases (getElem?_set_target _ hs).symm.trans hset
    exact ⟨_, rfl, .inl ⟨rfl, effect_completes hok⟩⟩
  · cases hs.symm.trans ht
    exact ⟨_, rfl, .inr ⟨nofun, rfl⟩⟩

/-- The same two cases, where the response is known. -/
theorem exec_target_status {r : Response} (h : exec i s = .next t) (hs : s.inst[s.target]? = some ⟨v, e⟩)
    (ht : t.inst[s.target]? = some ⟨v, e'⟩) (hr : t.responses = s.responses ++ [r]) :
    r.status = .ok ∧ Completes s e e' i ∨ r.status ≠ .ok ∧ e' = e := by
  obtain ⟨r', hr', hcases⟩ := exec_target_cases h hs ht
  cases List.append_cancel_left (hr.symm.trans hr')
  exact hcases

/-- The same two cases, where the response does not matter. -/
theorem exec_target_completes (h : exec i s = .next t) (hs : s.inst[s.target]? = some ⟨v, e⟩)
    (ht : t.inst[s.target]? = some ⟨v, e'⟩) : Completes s e e' i ∨ e' = e := by
  obtain ⟨-, -, ⟨-, hc⟩ | ⟨-, he⟩⟩ := exec_target_cases h hs ht
  · exact .inl hc
  · exact .inr he

theorem exec_other_inst (h : exec i s = .next t) {d : Nat} (hd : d ≠ s.target) : t.inst[d]? = s.inst[d]? := by
  obtain ⟨w, f, hf, ⟨f', x, -, rfl⟩ | ⟨err, -, rfl⟩⟩ := exec_cases h
  · exact List.getElem?_set_ne hd.symm
  · rfl

/-! ## The key buffer -/

/-- R25, R30: only KPUSH writes key cells, and only KCLR and KPUSH change their number. -/
theorem Completes.key_eq (h : Completes s e e' i) (hi : ∀ arg, i ≠ .kpush arg) :
    e'.key = e.key ∧ (i ≠ .kclr → e'.keyLen = e.keyLen) := by
  cases i with
  | kpush arg => exact absurd rfl (hi arg)
  | kclr => cases h; exact ⟨rfl, fun hne => absurd rfl hne⟩
  | next | next32 => obtain ⟨-, rfl⟩ := h; simp
  | clone src => obtain ⟨b, -, -, rfl⟩ := h; exact ⟨rfl, fun _ => rfl⟩
  | seed | seedk | rdcur => cases h; exact ⟨rfl, fun _ => rfl⟩

/-- R83: KPUSH writes the cell at the key length, and no other. -/
theorem Completes.kpush_getElem? {arg j : Nat} (h : Completes s e e' (Instr.kpush arg)) (hj : j ≠ e.keyLen) :
    e'.key[j]? = e.key[j]? := by
  cases h
  exact List.getElem?_set_ne hj.symm

/-- R82, R83: the key commands leave the generator alone. -/
theorem Completes.generator_eq (h : Completes s e e' i) (hi : i = .kclr ∨ ∃ arg, i = .kpush arg) :
    e'.words = e.words ∧ e'.cursor = e.cursor := by
  obtain rfl | ⟨arg, rfl⟩ := hi
  · cases h; exact ⟨rfl, rfl⟩
  · cases h; exact ⟨rfl, rfl⟩

/-! ## The cursor -/

/-- R101: a twist puts the cursor to 0. -/
theorem Engine.ready_cursor (e : Engine v) : e.ready.cursor = if e.cursor = v.N then 0 else e.cursor := by
  simp only [Engine.ready, Engine.twistDue_iff, apply_ite Engine.cursor, Engine.twist]

theorem Completes.seeding_cursor (h : Completes s e e' i) (hi : (∃ arg, i = .seed arg) ∨ i = .seedk) :
    e'.cursor = v.N := by
  obtain ⟨arg, rfl⟩ | rfl := hi
  · cases h; rfl
  · cases h; rfl

theorem Completes.extraction_cursor (h : Completes s e e' i) (hi : i = .next ∨ i = .next32) :
    e.cursor ≠ v.N + 1 ∧ e'.cursor = (if e.cursor = v.N then 0 else e.cursor) + 1 := by
  have hl : e.cursor ≠ v.N + 1 ∧ e' = { e.ready with cursor := e.ready.cursor + 1 } := by
    obtain rfl | rfl := hi <;> exact h
  obtain ⟨hne, rfl⟩ := hl
  exact ⟨hne, congrArg (· + 1) e.ready_cursor⟩

theorem Completes.clone_cursor {src : Nat} (h : Completes s e e' (Instr.clone src)) :
    ∃ b : Engine v, s.inst[src]? = some ⟨v, b⟩ ∧ b.cursor ≠ v.N + 1 ∧ e'.cursor = b.cursor := by
  obtain ⟨b, hb, hne, rfl⟩ := h
  exact ⟨b, hb, hne, rfl⟩

/-- R22: KCLR, KPUSH and RDCUR leave the cursor alone. -/
theorem Completes.cursor_eq (h : Completes s e e' i) (hi : i = .kclr ∨ i = .rdcur ∨ ∃ arg, i = .kpush arg) :
    e'.cursor = e.cursor := by
  obtain rfl | rfl | ⟨arg, rfl⟩ := hi
  · cases h; rfl
  · cases h; rfl
  · cases h; rfl

/-! ## The seeded condition -/

/-- R23: SEED, SEEDK and CLONE leave the engine seeded. -/
theorem Completes.seeds (h : Completes s e e' i) (hi : (∃ arg, i = .seed arg) ∨ i = .seedk ∨ ∃ src, i = .clone src) :
    e'.cursor ≠ v.N + 1 := by
  obtain hi | hi | ⟨src, rfl⟩ := hi
  · have := h.seeding_cursor (.inl hi); omega
  · have := h.seeding_cursor (.inr hi); omega
  · obtain ⟨b, -, hne, hb⟩ := h.clone_cursor
    rwa [hb]

/-- R23: any other command leaves the engine seeded exactly if it was. -/
theorem Completes.seeds_or_seeded_iff (h : Completes s e e' i) :
    ((∃ arg, i = .seed arg) ∨ i = .seedk ∨ ∃ src, i = .clone src) ∨ (e'.cursor = v.N + 1 ↔ e.cursor = v.N + 1) := by
  cases i with
  | seed arg => exact .inl (.inl ⟨arg, rfl⟩)
  | seedk => exact .inl (.inr (.inl rfl))
  | clone src => exact .inl (.inr (.inr ⟨src, rfl⟩))
  | next | next32 =>
    obtain ⟨hne, hc⟩ := h.extraction_cursor (by simp)
    have := Variant_N_pos v
    refine .inr ?_
    split at hc <;> omega
  | kclr | rdcur | kpush => exact .inr (by rw [h.cursor_eq (by simp)])

/-- R23: a command keeps every seeded instance seeded, its target and any other. -/
theorem exec_keeps_seeded {d : Nat} (h : exec i s = .next t) (hd : s.inst[d]? = some ⟨v, e⟩)
    (he : e.cursor ≠ v.N + 1) : ∃ e' : Engine v, t.inst[d]? = some ⟨v, e'⟩ ∧ e'.cursor ≠ v.N + 1 := by
  by_cases htgt : d = s.target
  · subst htgt
    obtain ⟨e', ht⟩ := exec_target_exists h hd
    refine ⟨e', ht, ?_⟩
    obtain hc | rfl := exec_target_completes h hd ht
    · obtain hi | hiff := hc.seeds_or_seeded_iff
      · exact hc.seeds hi
      · exact mt hiff.mp he
    · exact he
  · exact ⟨e, (exec_other_inst h htgt).trans hd, he⟩

/-- R23: so does every step that takes no reset. -/
theorem step_keeps_seeded {d : Nat} (hrst : ∀ inFlight rest, s.inputs ≠ .rst inFlight :: rest) (h : step s = .next t)
    (hd : s.inst[d]? = some ⟨v, e⟩) (he : e.cursor ≠ v.N + 1) :
    ∃ e' : Engine v, t.inst[d]? = some ⟨v, e'⟩ ∧ e'.cursor ≠ v.N + 1 := by
  obtain ⟨-, rfl⟩ | ⟨p, word, rest, x, i, -, -, -, hi⟩ | ⟨p, word, rest, x, why, -, -, -, rfl⟩ | ⟨q, rest, hin, -⟩ :=
    step_cases h
  · exact ⟨e, hd, he⟩
  · exact exec_keeps_seeded (s := s.present p rest) hi hd he
  · exact ⟨e, hd, he⟩
  · exact absurd hin (hrst q rest)

end

/-! ## The obligations -/

/-- Settles O37: a success replaces the target by an engine of its variant, a refusal replaces nothing. -/
theorem onlyTheTargetChanges : Obligations.OnlyTheTargetChanges := by
  unfold Obligations.OnlyTheTargetChanges
  intro i s t h
  refine ⟨fun d hd => exec_other_inst h hd, ?_⟩
  obtain ⟨v, e, hs, ⟨e', x, -, rfl⟩ | ⟨err, -, rfl⟩⟩ := exec_cases h
  · exact ⟨map_variant_set e' hs, rfl, rfl, rfl, rfl⟩
  · exact ⟨rfl, rfl, rfl, rfl, rfl⟩

/-- Settles O38: a command that succeeds does to the buffer what its meaning says; a refused one does nothing. -/
theorem keyBufferFrame : Obligations.KeyBufferFrame := by
  unfold Obligations.KeyBufferFrame
  intro i s t v e e' hs h ht
  obtain hc | rfl := exec_target_completes h hs ht
  · refine ⟨hc.key_eq, ?_, hc.generator_eq, ?_⟩
    · rintro arg rfl j hj
      exact hc.kpush_getElem? hj
    · rintro rfl
      exact hc
  · exact ⟨fun _ => ⟨rfl, fun _ => rfl⟩, fun _ _ _ _ => rfl, fun _ => ⟨rfl, rfl⟩, fun _ => rfl⟩

/-- Settles O39, by the status: a refused command leaves the engine, one that succeeds moves the cursor as it says. -/
theorem cursorEffects : Obligations.CursorEffects := by
  unfold Obligations.CursorEffects
  intro i s t v e e' r hs h ht hr hle
  obtain ⟨hok, hc⟩ | ⟨hne, rfl⟩ := exec_target_status h hs ht hr
  · refine ⟨fun hne => absurd hok hne, fun _ => ⟨hc.seeding_cursor, fun hi => ?_, hc.cursor_eq, ?_⟩⟩
    · obtain ⟨hseeded, hcur⟩ := hc.extraction_cursor hi
      have := Variant_N_pos v
      split at hcur <;> omega
    · rintro src rfl
      obtain ⟨b, hb, -, hcur⟩ := hc.clone_cursor
      exact ⟨b, hb, hcur⟩
  · exact ⟨fun _ => rfl, fun hok => absurd hok hne⟩

/-- Settles O40, from what each command does to the cursor. -/
theorem seededUntilReset : Obligations.SeededUntilReset := by
  unfold Obligations.SeededUntilReset
  refine ⟨fun s t d v e hrst h hd he => step_keeps_seeded hrst h hd he, ?_, ?_⟩
  · intro i s t v e e' h hs ht he he'
    obtain hc | rfl := exec_target_completes h hs ht
    · exact hc.seeds_or_seeded_iff.resolve_right fun hiff => he' (hiff.mpr he)
    · exact absurd he he'
  · intro i s t v e e' r h hs ht hr hok hi
    obtain ⟨-, hc⟩ | ⟨hne, -⟩ := exec_target_status h hs ht hr
    · exact hc.seeds hi
    · exact absurd hok hne

end Sys2Proof.Machine
end

section
/-! PROOFS. A command other than CLONE reads its own engine and `KEY_MAX`, and nothing else of the system
(spec/10_state.md R26, R27, R46). From any state whose target holds the same engine it does the same thing, and so two
such commands sent to different instances commute. -/

namespace Sys2Proof.Machine

section
variable {i j : Instr} {s t : State}

/-- What a command other than CLONE does to an engine does not depend on the rest of the system, but for `KEY_MAX`. -/
theorem effect_eq_of_keyMax (hi : ∀ src, i ≠ .clone src) (hmax : s.keyMax = t.keyMax) : effect s i = effect t i := by
  cases i with
  | clone src => exact absurd rfl (hi src)
  | kpush arg => funext v e; simp only [effect, hmax]
  | seed | kclr | seedk | next | next32 | rdcur => rfl

/-- Writing the target back changes nothing. -/
theorem State.setTarget_self {x : Inst} (h : s.inst[s.target]? = some x) : s.setTarget x = s := by
  unfold State.setTarget; rw [set_target_self h]

/-- A command other than CLONE does one thing to one engine: from an answer in `s`, its answer in every state that has
the same `KEY_MAX` and the same engine as its target. -/
theorem exec_uniform (hi : ∀ src, i ≠ .clone src) (h : exec i s = .next t) :
    ∃ (v : Variant) (e e' : Engine v) (st : Status) (x : Word v), s.inst[s.target]? = some ⟨v, e⟩ ∧
      ∀ u : State, u.keyMax = s.keyMax → u.inst[u.target]? = some ⟨v, e⟩ →
        exec i u = .next ((u.setTarget ⟨v, e'⟩).respond v st x) := by
  obtain ⟨v, e, hs, ⟨e', x, hf, -⟩ | ⟨err, hf, -⟩⟩ := exec_cases h
  · refine ⟨v, e, e', .ok, x, hs, fun u hmax hu => ?_⟩
    rw [exec_eq_transact, effect_eq_of_keyMax hi hmax]
    exact transact_eq_ok hu hf
  · refine ⟨v, e, e, .error err, 0, hs, fun u hmax hu => ?_⟩
    rw [exec_eq_transact, effect_eq_of_keyMax hi hmax, State.setTarget_self hu]
    exact transact_eq_error hu hf

end

/-- Settles O43: the one thing the command does, in both systems. -/
theorem commandDependsOnItsInstanceOnly : Obligations.CommandDependsOnItsInstanceOnly := by
  unfold Obligations.CommandDependsOnItsInstanceOnly
  intro i s s' t v e hi hs ht hmax h
  obtain ⟨w, f, e', st, x, hf, huniform⟩ := exec_uniform hi h
  cases hs.symm.trans hf
  cases h.symm.trans (huniform s rfl hs)
  exact ⟨_, e', st, x, huniform t hmax.symm ht, getElem?_set_target _ hs, getElem?_set_target _ ht, rfl, rfl⟩

/-- Settles O44: neither command touches the engine of the other, and writes to different instances commute. -/
theorem commandsToDifferentInstancesCommute : Obligations.CommandsToDifferentInstancesCommute := by
  unfold Obligations.CommandsToDifferentInstancesCommute
  intro i j s a b c d hcd hi hj ha hb
  obtain ⟨v, e, e', st, x, hc, hrunI⟩ := exec_uniform hi ha
  cases ha.symm.trans (hrunI _ rfl hc)
  obtain ⟨w, f, f', su, y, hd, hrunJ⟩ := exec_uniform hj hb
  cases hb.symm.trans (hrunJ _ rfl hd)
  have hd₀ : s.inst[d]? = some ⟨w, f⟩ := (List.getElem?_set_ne hcd).symm.trans hd
  have hc₁ : (s.inst.set d ⟨w, f'⟩)[c]? = some ⟨v, e⟩ := (List.getElem?_set_ne hcd.symm).trans hc
  refine ⟨_, _, ⟨c, v, st, x⟩, ⟨d, w, su, y⟩, hrunJ { s with target := d } rfl hd₀, hrunI _ rfl hc₁, ?_, ?_, ?_⟩
  · exact List.set_comm _ _ hcd.symm
  · simp
  · simp

end Sys2Proof.Machine
end

section
/-! PROOFS. The state after reset (spec/10_state.md R29, spec/70_reset_and_hazards.md R160), for all build parameters. -/

namespace Sys2Proof.Machine

/-- R5: a system right after reset has the build parameters it was made with. -/
@[simp] theorem State.ofConfig_config (c : Config) : (State.ofConfig c).config = c := by
  simp [State.config, State.ofConfig]

theorem State.ofConfig_getElem? {c : Config} {d : Nat} {v : Variant} (h : c.variants[d]? = some v) :
    (State.ofConfig c).inst[d]? = some ⟨v, Engine.reset v c.keyMax 0 d⟩ := by
  simp [State.ofConfig, getElem?_resetInsts, h]

theorem State.ofConfig_inv {c : Config} (h : c.Legal) : (State.ofConfig c).Inv := by
  refine ⟨(State.ofConfig_config c).symm ▸ h, fun x hx => ?_, nofun⟩
  obtain ⟨v, j, rfl⟩ := mem_resetInsts hx
  exact Engine.reset_ok v c.keyMax 0 j

/-- Settles O10: at number `d` stands the reset engine `d` of its variant. -/
theorem resetStateValues : Obligations.ResetStateValues := by
  unfold Obligations.ResetStateValues
  refine ⟨fun c => ⟨State.ofConfig_config c, fun d v hv => ?_⟩, rfl⟩
  exact ⟨_, State.ofConfig_getElem? hv, Engine.reset_cursor .., Engine.reset_keyLen .., Engine.length_reset_words ..,
    Engine.length_reset_key ..⟩

/-- Settles O34: every engine is a reset engine, nothing has been answered, and the parameters of `State.reset` are
legal. -/
theorem invariantHoldsAtReset : Obligations.InvariantHoldsAtReset := by
  unfold Obligations.InvariantHoldsAtReset
  have hlegal : resetConfig.Legal := by decide
  exact ⟨fun _ hc => State.ofConfig_inv hc, State.ofConfig_inv hlegal⟩

end Sys2Proof.Machine
end

section
/-! PROOFS. The byte view of a word (spec/20_memory.md R43). -/

namespace Sys2Proof.Machine

/-- A number below `256^n` is the weighted sum of its `n` lowest base-256 digits, least significant first. -/
theorem foldr_digits256 (n m : Nat) (hm : m < 256 ^ n) :
    ((List.range n).map fun b => m / 256 ^ b % 256).foldr (fun y acc => y + 256 * acc) 0 = m := by
  induction n generalizing m with
  | zero => exact (Nat.lt_one_iff.mp hm).symm
  | succ n ih =>
    have hquot : m / 256 < 256 ^ n := Nat.div_lt_of_lt_mul (Nat.pow_succ' ▸ hm)
    have hdigit (b : Nat) : m / 256 ^ (b + 1) % 256 = m / 256 / 256 ^ b % 256 := by
      rw [Nat.pow_succ', Nat.div_div_eq_div_mul]
    simp only [List.range_succ_eq_map, List.map_cons, List.map_map, Function.comp_def, Nat.succ_eq_add_one, hdigit,
      List.foldr_cons, ih _ hquot, Nat.pow_zero, Nat.div_one, Nat.mod_add_div]

theorem two_pow_W (v : Variant) : 2 ^ v.W = 256 ^ (v.W / 8) := by
  cases v <;> rfl

theorem byteOf_eq_ofNat {v : Variant} (x : Word v) (b : Nat) : byteOf x b = BitVec.ofNat 8 (x.toNat / 256 ^ b) := by
  rw [byteOf, BitVec.extractLsb', Nat.shiftRight_eq_div_pow, Nat.pow_mul]

@[simp] theorem length_wordBytes {v : Variant} (x : Word v) : (wordBytes x).length = v.W / 8 := by
  simp [wordBytes]

theorem wordBytes_getElem? {v : Variant} (x : Word v) {b : Nat} (hb : b < v.W / 8) :
    (wordBytes x)[b]? = some (byteOf x b) := by
  simp [wordBytes, hb]

theorem map_toNat_wordBytes {v : Variant} (x : Word v) :
    (wordBytes x).map BitVec.toNat = (List.range (v.W / 8)).map fun b => x.toNat / 256 ^ b % 256 := by
  simp [wordBytes, byteOf_eq_ofNat]

/-- The bytes of a word are its base-256 digits, and `256^(W/8)` is `2^W`, so they determine the word. -/
theorem foldr_wordBytes {v : Variant} (x : Word v) :
    (wordBytes x).foldr (fun y acc => y.toNat + 256 * acc) 0 = x.toNat := by
  have hx : x.toNat < 256 ^ (v.W / 8) := two_pow_W v ▸ x.isLt
  calc (wordBytes x).foldr (fun y acc => y.toNat + 256 * acc) 0
    _ = ((wordBytes x).map BitVec.toNat).foldr (fun y acc => y + 256 * acc) 0 := by rw [List.foldr_map]
    _ = x.toNat := by rw [map_toNat_wordBytes, foldr_digits256 _ _ hx]

/-- Settles O48: byte `b` is the base-256 digit of weight `256^b`, and the digits add up to the word. -/
theorem byteViewIsLittleEndian : Obligations.ByteViewIsLittleEndian := by
  unfold Obligations.ByteViewIsLittleEndian
  exact fun v x => ⟨length_wordBytes x, fun b hb => byteOf_eq_ofNat x b ▸ wordBytes_getElem? x hb, foldr_wordBytes x⟩

end Sys2Proof.Machine
end

section
/-! PROOFS. The decoder against the encoder (spec/30_encoding.md R61, R63, R65, R66, R70). A command word is its opcode
above its operand; what the decoder answers is said once for the eight opcodes of R63 (`decode_of_opcode`), once for all
others (`decode_of_reserved`), and once from the answer back to the word (`decode_eq_command`). -/

namespace Sys2Proof

/-- R61: the operand of a format A command; none for format Z. -/
def Instr.operand : Instr → Option Nat
  | .seed arg | .kpush arg | .clone arg => some arg
  | .kclr | .seedk | .next | .next32 | .rdcur => none

section
variable {v : Variant} {cw : CommandWord v} {i : Instr}

/-! ## The operand of a command -/

theorem Instr.operandFits_iff : i.operandFits v = true ↔ ∀ a, i.operand = some a → a < 2 ^ v.W := by
  cases i <;> simp [Instr.operandFits, Instr.operand]

theorem Instr.legalOn_iff : i.legalOn v = true ↔ ¬(i = .next32 ∧ v = .mt32) := by
  cases i <;> cases v <;> simp [Instr.legalOn]

theorem Instr.wellFormed_iff : i.wellFormed v = true ↔ i.operandFits v = true ∧ i.legalOn v = true := by
  simp [Instr.wellFormed]

theorem Instr.argBits_eq (v : Variant) (i : Instr) : i.argBits v = BitVec.ofNat v.W (i.operand.getD 0) := by
  cases i <;> rfl

/-- R70: an operand that fits is not cut off in the command word. -/
theorem Instr.toNat_argBits {a : Nat} (hfits : i.operandFits v = true) (ha : i.operand = some a) :
    (i.argBits v).toNat = a := by
  rw [Instr.argBits_eq, ha, Option.getD_some, BitVec.toNat_ofNat,
    Nat.mod_eq_of_lt (Instr.operandFits_iff.mp hfits a ha)]

/-! ## The fields of a command word -/

theorem opField_encode (v : Variant) (i : Instr) : opField v (encode v i) = i.opcode := opField_append v _ _

theorem argField_encode (v : Variant) (i : Instr) : argField v (encode v i) = i.argBits v := argField_append v _ _

theorem toNat_encode (v : Variant) (i : Instr) :
    (encode v i).toNat = i.opcode.toNat * 2 ^ v.W + (i.argBits v).toNat := toNat_commandWord v _ _

theorem opField_append_argField (v : Variant) (cw : CommandWord v) : opField v cw ++ argField v cw = cw := by
  refine BitVec.eq_of_toNat_eq ?_
  rw [toNat_commandWord, opField_toNat, argField_toNat, Nat.div_add_mod']

/-! ## What the decoder answers -/

/-- R63, R65: a word with the opcode of a command, and its operand if it has one, is that command, unless the port's
variant does not have it. -/
theorem decode_of_opcode (hop : (opField v cw).toNat = i.opcode.toNat)
    (harg : ∀ a, i.operand = some a → (argField v cw).toNat = a) :
    decode v cw = if i.legalOn v then .command i else .illegal .next32OnMt32 := by
  cases i with
  | seed a | kpush a | clone a => simp [decode, hop, harg a rfl, Instr.opcode, Instr.legalOn]
  | kclr | seedk | next | next32 | rdcur => simp [decode, hop, Instr.opcode, Instr.legalOn]

/-- The same with the two fields as quotient and remainder. -/
theorem decode_of_div_mod (hop : cw.toNat / 2 ^ v.W = i.opcode.toNat)
    (harg : ∀ a, i.operand = some a → cw.toNat % 2 ^ v.W = a) :
    decode v cw = if i.legalOn v then .command i else .illegal .next32OnMt32 :=
  decode_of_opcode (opField_toNat v cw ▸ hop) (argField_toNat v cw ▸ harg)

/-- R65: every other opcode is reserved. -/
theorem decode_of_reserved (hop : (opField v cw).toNat = 0 ∨ 9 ≤ (opField v cw).toNat) :
    decode v cw = .illegal (.reservedOpcode (opField v cw)) := by
  unfold decode
  split
  case h_9 => rfl
  all_goals omega

/-- A word that decodes to a command has that command's opcode and operand, and the command is one of the port's. -/
theorem decode_eq_command (h : decode v cw = .command i) :
    opField v cw = i.opcode ∧ i.legalOn v = true ∧ ∀ a, i.operand = some a → (argField v cw).toNat = a := by
  suffices (opField v cw).toNat = i.opcode.toNat ∧ i.legalOn v = true ∧
      ∀ a, i.operand = some a → (argField v cw).toNat = a from ⟨BitVec.eq_of_toNat_eq this.1, this.2⟩
  unfold decode at h
  split at h
  case h_6 hop =>
    split at h
    · next hv => cases h; exact ⟨hop, by simp [Instr.legalOn, hv], nofun⟩
    · cases h
  case h_9 => cases h
  all_goals
    next hop => cases h; exact ⟨hop, rfl, by simp [Instr.operand]⟩

/-- R61, R70: what comes of the word of a command whose operand fits. -/
theorem decode_encode (hfits : i.operandFits v = true) :
    decode v (encode v i) = if i.legalOn v then .command i else .illegal .next32OnMt32 :=
  decode_of_opcode (congrArg _ (opField_encode v i)) fun a ha => by
    rw [argField_encode, Instr.toNat_argBits hfits ha]

theorem decode_encode_of_wellFormed (h : i.wellFormed v = true) : decode v (encode v i) = .command i := by
  obtain ⟨hfits, hlegal⟩ := Instr.wellFormed_iff.mp h
  rw [decode_encode hfits, if_pos hlegal]

/-! ## From a decoded command back to its word -/

theorem wellFormed_of_decode (h : decode v cw = .command i) : i.wellFormed v = true := by
  obtain ⟨-, hlegal, harg⟩ := decode_eq_command h
  exact Instr.wellFormed_iff.mpr ⟨Instr.operandFits_iff.mpr fun a ha => harg a ha ▸ (argField v cw).isLt, hlegal⟩

/-- R61: a word that decodes to a format A command is the command's word. -/
theorem encode_of_decode_operand {a : Nat} (h : decode v cw = .command i) (ha : i.operand = some a) :
    encode v i = cw := by
  obtain ⟨hop, -, harg⟩ := decode_eq_command h
  have hbits : i.argBits v = argField v cw := by
    rw [Instr.argBits_eq, ha, Option.getD_some, ← harg a ha, BitVec.ofNat_toNat, BitVec.setWidth_eq]
  rw [encode, ← hop, hbits, opField_append_argField]

/-- R61: the word of a format Z command has zero operand bits, whatever the word it was decoded from had there. -/
theorem toNat_encode_of_decode_none (h : decode v cw = .command i) (hi : i.operand = none) :
    (encode v i).toNat = cw.toNat / 2 ^ v.W * 2 ^ v.W := by
  obtain ⟨hop, -, -⟩ := decode_eq_command h
  simp [toNat_encode, Instr.argBits_eq, hi, ← hop, opField_toNat]

end

/-! ## The obligations -/

/-- Settles O3: the encoder writes the fields the decoder reads. -/
theorem decodeOfEncodeIsIdentity : Obligations.DecodeOfEncodeIsIdentity := by
  unfold Obligations.DecodeOfEncodeIsIdentity
  exact fun _ _ => decode_encode_of_wellFormed

/-- Settles O2: the eight opcodes of R63, then all others. -/
theorem opcodeMapIsExact : Obligations.OpcodeMapIsExact := by
  unfold Obligations.OpcodeMapIsExact
  intro v cw
  refine ⟨fun h => decode_of_div_mod (i := .seed _) h fun _ => Option.some.inj,
    fun h => decode_of_div_mod (i := .kclr) h nofun,
    fun h => decode_of_div_mod (i := .kpush _) h fun _ => Option.some.inj,
    fun h => decode_of_div_mod (i := .seedk) h nofun,
    fun h => decode_of_div_mod (i := .next) h nofun,
    fun h hv => ?_, fun h hv => ?_,
    fun h => decode_of_div_mod (i := .rdcur) h nofun,
    fun h => decode_of_div_mod (i := .clone _) h fun _ => Option.some.inj,
    fun h => ?_⟩
  · rw [decode_of_div_mod (i := .next32) h nofun, if_neg (by simp [Instr.legalOn, hv])]
  · rw [decode_of_div_mod (i := .next32) h nofun, if_pos (by simp [Instr.legalOn, hv])]
  · rw [← opField_toNat] at h ⊢
    rw [decode_of_reserved h, BitVec.ofNat_toNat, BitVec.setWidth_eq]

/-- Settles O4, by the format of the command. -/
theorem decodedCommandsAreWellFormed : Obligations.DecodedCommandsAreWellFormed := by
  unfold Obligations.DecodedCommandsAreWellFormed
  intro v cw i h
  refine ⟨wellFormed_of_decode h, ?_, ?_⟩
  · rintro ⟨a, rfl | rfl | rfl⟩ <;> exact encode_of_decode_operand h rfl
  · rintro (rfl | rfl | rfl | rfl | rfl) <;> exact toNat_encode_of_decode_none h rfl

/-- Settles O1: the decoder evaluated on the twelve words. -/
theorem documentedWordsDecode : Obligations.DocumentedWordsDecode := by
  unfold Obligations.DocumentedWordsDecode
  decide

end Sys2Proof
end

section
/-! PROOFS. The command port (spec/30_encoding.md R60, R62, R66, spec/60_exceptions.md R131): the bits of a response, and
what a step does with a command word a host can present. -/

namespace Sys2Proof.Machine

/-- R62: the number of a response. -/
theorem Response.toNat_word (r : Response) : r.word.toNat = r.status.code.toNat * 2 ^ r.variant.W + r.data.toNat := by
  rw [Response.word, BitVec.toNat_append, Nat.shiftLeft_eq, Nat.mul_comm, ← Nat.two_pow_add_eq_or_of_lt r.data.isLt]

/-- Settles O5: the two fields of a response, and the table of codes. -/
theorem responseWordLayout : Obligations.ResponseWordLayout := by
  unfold Obligations.ResponseWordLayout
  exact ⟨Response.toNat_word, rfl, rfl, rfl, rfl, rfl, rfl⟩

section
variable {s : State} {d word : Nat} {rest : List Input} {x : Inst}

/-- R60: a word of the port's width on a port that exists is taken and decoded. -/
theorem step_word (hin : s.inputs = .command d word :: rest) (hx : s.inst[d]? = some x)
    (hword : word < 2 ^ (8 + x.variant.W)) :
    step s = runWord (s.present d rest) x.variant (BitVec.ofNat (8 + x.variant.W) word) := by
  simp [step_command hin, transaction, hx, hword]

theorem runWord_of_decode {v : Variant} {cw : CommandWord v} {i : Instr} (h : decode v cw = .command i) :
    runWord s v cw = exec i s := by
  simp only [runWord, h]

/-- R66: every command word on a port that exists is answered. -/
theorem runWord_answers (hx : s.inst[s.target]? = some x) (v : Variant) (cw : CommandWord v) :
    ∃ t, runWord s v cw = .next t := by
  unfold runWord
  split
  · next i _ => exact exec_answers i hx
  · exact ⟨_, rfl⟩

end

/-- Settles O6: the word is taken, and decodes to its command. -/
theorem stepRunsDecodedCommand : Obligations.StepRunsDecodedCommand := by
  unfold Obligations.StepRunsDecodedCommand
  intro s d word rest v e i hin hx hword hdec
  exact (step_word hin hx hword).trans (runWord_of_decode hdec)

/-- Settles O41: no input, a command word, or a reset. -/
theorem presentableInputsNeverStop : Obligations.PresentableInputsNeverStop := by
  unfold Obligations.PresentableInputsNeverStop
  intro s hlegal
  match hin : s.inputs with
  | [] => exact ⟨s, step_idle hin⟩
  | .rst inFlight :: rest => exact ⟨_, step_rst hin⟩
  | .command d word :: rest =>
    obtain ⟨x, hx, hword⟩ := hlegal _ _ hin
    rw [step_word hin hx hword]
    exact runWord_answers (s := s.present d rest) hx _ _

end Sys2Proof.Machine
end

section
/-! PROOFS. Operands that no command word gives (log entry 12): what SEED and KPUSH do with one, and CLONE, whose checks
(spec/42_system.md R121) do not look at the width of its operand. -/

namespace Sys2Proof.Machine

section
variable {s : State} {i : Instr} {v : Variant} {e e' : Engine v}

/-! ## One command, its next state written out -/

theorem exec_eq_ok {x : Word v} (ht : s.inst[s.target]? = some ⟨v, e⟩) (hf : effect s i v e = .ok (e', x)) :
    exec i s = .next { s with
      inst := s.inst.set s.target ⟨v, e'⟩
      responses := s.responses ++ [⟨s.target, v, .ok, x⟩] } :=
  (exec_eq_transact i s).trans (transact_eq_ok ht hf)

theorem exec_eq_error {err : Error} (ht : s.inst[s.target]? = some ⟨v, e⟩) (hf : effect s i v e = .error err) :
    exec i s = .next { s with responses := s.responses ++ [⟨s.target, v, .error err, 0⟩] } :=
  (exec_eq_transact i s).trans (transact_eq_error ht hf)

/-- Two commands with one effect on the target's engine are one command there. -/
theorem exec_congr {j : Instr} (ht : s.inst[s.target]? = some ⟨v, e⟩) (h : effect s i v e = effect s j v e) :
    exec i s = exec j s := by
  simp only [exec_eq_transact, transact, ht, h]

/-! ## The checks of CLONE -/

theorem Engine.clone_none (e : Engine v) : e.clone none = .error .badOperand := rfl

theorem Engine.clone_other_variant {x : Inst} (e : Engine v) (hx : x.variant ≠ v) :
    e.clone (some x) = .error .badOperand := by
  simp [Engine.clone, hx]

theorem Engine.clone_unseeded (e : Engine v) {b : Engine v} (hb : b.cursor = v.N + 1) :
    e.clone (some ⟨v, b⟩) = .error .notSeeded := by
  simp [Engine.clone, Engine.seeded, hb]

theorem Engine.clone_seeded (e : Engine v) {b : Engine v} (hb : b.cursor ≠ v.N + 1) :
    e.clone (some ⟨v, b⟩) = .ok (e.copyFrom b, 0) := by
  simp [Engine.clone, Engine.seeded, hb]

/-- The effect of CLONE is that of what its operand names. -/
theorem effect_clone {src : Nat} {p : Option Inst} (hp : s.inst[src]? = p) :
    effect s (.clone src) v e = e.clone p := congrArg e.clone hp

end

/-- Settles O16: both commands read their operand as a word. -/
theorem wideOperandsActModuloWord : Obligations.WideOperandsActModuloWord := by
  unfold Obligations.WideOperandsActModuloWord
  intro s v e arg ht
  constructor
  · refine exec_congr ht ?_
    simp only [effect, Engine.seed, operandWord_mod]
  · refine exec_congr ht ?_
    simp only [effect, Engine.kpush, operandWord_mod]

/-- Settles O30, by what the operand names. -/
theorem wideCloneOperandIsUsedAsItIs : Obligations.WideCloneOperandIsUsedAsItIs := by
  unfold Obligations.WideCloneOperandIsUsedAsItIs
  intro s v e src ht _
  refine ⟨fun hnone => ?_, fun x hx hvariant => ?_, fun b hb hcursor => ?_, fun b hb hcursor => ?_⟩
  · exact exec_eq_error ht ((effect_clone (List.getElem?_eq_none hnone)).trans e.clone_none)
  · exact exec_eq_error ht ((effect_clone hx).trans (e.clone_other_variant hvariant))
  · exact exec_eq_error ht ((effect_clone hb).trans (e.clone_unseeded hcursor))
  · exact exec_eq_ok ht ((effect_clone hb).trans (e.clone_seeded hcursor))

end Sys2Proof.Machine
end

section
/-! PROOFS. The assembler (spec/30_encoding.md R70, R71): which lines it accepts, and what their words decode to. -/

namespace Sys2Proof.Machine

section
variable {s : State} {l : AsmLine} {x : Inst}

theorem assemble_of_fits (hx : s.inst[l.port]? = some x) (hfits : ∀ i ∈ l.body.expand, i.operandFits x.variant = true) :
    assemble s l = some (l.body.expand.map fun i => .command l.port (encode x.variant i).toNat) := by
  simp only [assemble, hx, if_pos (List.all_eq_true.mpr hfits)]

theorem assemble_of_wide (hx : s.inst[l.port]? = some x)
    (hwide : ∃ i ∈ l.body.expand, i.operandFits x.variant = false) : assemble s l = none := by
  have hall : ¬ l.body.expand.all (Instr.operandFits x.variant) = true := by simpa using hwide
  simp only [assemble, hx, if_neg hall]

theorem assemble_of_no_port (hx : s.inst[l.port]? = none) : assemble s l = none := by
  simp only [assemble, hx]

/-- An accepted line: its port exists, its operands fit, and its inputs are the words of its commands. -/
theorem assemble_eq_some {ins : List Input} (h : assemble s l = some ins) :
    ∃ x, s.inst[l.port]? = some x ∧ (∀ i ∈ l.body.expand, i.operandFits x.variant = true) ∧
      ins = l.body.expand.map fun i => .command l.port (encode x.variant i).toNat := by
  unfold assemble at h
  split at h
  · cases h
  · next x hx =>
    split at h
    · next hall => cases h; exact ⟨x, hx, List.all_eq_true.mp hall, rfl⟩
    · cases h

end

theorem ofNat_toNat_encode (v : Variant) (i : Instr) : BitVec.ofNat (8 + v.W) (encode v i).toNat = encode v i := by
  rw [BitVec.ofNat_toNat, BitVec.setWidth_eq]

/-- Settles O46, by the port and the operands. -/
theorem assemblerAcceptsExactly : Obligations.AssemblerAcceptsExactly := by
  unfold Obligations.AssemblerAcceptsExactly
  refine ⟨fun s l x hx => ⟨fun hfits => ?_, assemble_of_wide hx⟩, fun s l => assemble_of_no_port⟩
  simp only [assemble_of_fits hx hfits, toNat_encode]

/-- Settles O47: each input is the word of its command, and decodes as `decode_encode` says. -/
theorem assembledLinesDecode : Obligations.AssembledLinesDecode := by
  unfold Obligations.AssembledLinesDecode
  intro s l ins h
  obtain ⟨x, hx, hfits, rfl⟩ := assemble_eq_some h
  refine ⟨x, hx, List.forall₂_map_left_iff.mpr (List.forall₂_same.mpr fun i hi => ?_)⟩
  refine ⟨_, rfl, (encode x.variant i).isLt, ?_⟩
  rw [ofNat_toNat_encode, decode_encode (hfits i hi), ← ite_not]
  simp only [Instr.legalOn_iff, not_not]

end Sys2Proof.Machine
end

section
/-! PROOFS. The pseudo-instruction SEEDA (spec/30_encoding.md R71) run on one engine: KCLR, a KPUSH for each key word,
SEEDK. The KPUSHes are one induction over the key. -/

namespace Sys2Proof.Machine

section
variable {s : State} {d : Nat} {v : Variant} {e e' : Engine v} {i : Instr} {rest : List Input}

/-! ## One assembled command -/

theorem step_encoded (hin : s.inputs = .command d (encode v i).toNat :: rest) (hd : s.inst[d]? = some ⟨v, e⟩)
    (hi : i.wellFormed v = true) : step s = exec i (s.present d rest) := by
  rw [step_word hin hd (encode v i).isLt, ofNat_toNat_encode]
  exact runWord_of_decode (decode_encode_of_wellFormed hi)

theorem step_encoded_ok {x : Word v} (hin : s.inputs = .command d (encode v i).toNat :: rest)
    (hd : s.inst[d]? = some ⟨v, e⟩) (hi : i.wellFormed v = true)
    (hf : effect (s.present d rest) i v e = .ok (e', x)) :
    step s = .next { s with
      target := d, inputs := rest, inst := s.inst.set d ⟨v, e'⟩
      responses := s.responses ++ [⟨d, v, .ok, x⟩] } :=
  (step_encoded hin hd hi).trans (exec_eq_ok (s := s.present d rest) hd hf)

theorem step_encoded_error {err : Error} (hin : s.inputs = .command d (encode v i).toNat :: rest)
    (hd : s.inst[d]? = some ⟨v, e⟩) (hi : i.wellFormed v = true)
    (hf : effect (s.present d rest) i v e = .error err) :
    step s = .next { s with
      target := d, inputs := rest
      responses := s.responses ++ [⟨d, v, .error err, 0⟩] } :=
  (step_encoded hin hd hi).trans (exec_eq_error (s := s.present d rest) hd hf)

theorem wellFormed_kpush (x : Word v) : (Instr.kpush x.toNat).wellFormed v = true := by
  simp [Instr.wellFormed, Instr.operandFits, Instr.legalOn, x.isLt]

/-! ## A row of KPUSHes -/

/-- R83: one more word in the key buffer. -/
def Engine.push (e : Engine v) (x : Word v) : Engine v :=
  { e with key := writeWord e.key e.keyLen x, keyLen := e.keyLen + 1 }

/-- R83: KPUSH with room in the buffer. -/
theorem Engine.kpush_eq_push {keyMax : Nat} (e : Engine v) (x : Word v) (h : e.keyLen < keyMax) :
    e.kpush keyMax x.toNat = .ok (e.push x, 0) := by
  have hroom : e.keyFull keyMax = false := by simp [Engine.keyFull, h.ne]
  simp [Engine.kpush, hroom, Engine.push]

theorem Engine.seedk_eq_ok (e : Engine v) (h : e.keyLen ≠ 0) :
    e.seedk = .ok ({ e with words := arrayInit (e.key.take e.keyLen), cursor := v.N }, 0) := by
  simp [Engine.seedk, Engine.keyEmpty, h]

theorem Engine.seedk_eq_error (e : Engine v) (h : e.keyLen = 0) : e.seedk = .error .invalidSeed := by
  simp [Engine.seedk, Engine.keyEmpty, h]

/-- A row of pushes that fits writes its words above the valid entries, and nothing else. -/
theorem Engine.foldl_push (key : List (Word v)) (e : Engine v) (h : e.keyLen + key.length ≤ e.key.length) :
    key.foldl Engine.push e = { e with
      key := e.key.take e.keyLen ++ key ++ e.key.drop (e.keyLen + key.length)
      keyLen := e.keyLen + key.length } := by
  induction key generalizing e with
  | nil => simp
  | cons x key ih =>
    have hroom : e.keyLen < e.key.length := by simp at h; omega
    have htake : (writeWord e.key e.keyLen x).take (e.keyLen + 1) = e.key.take e.keyLen ++ [x] := by
      rw [writeWord, List.set_eq_take_append_cons_drop, if_pos hroom, List.take_append]
      simp [Nat.min_eq_left hroom.le]
    have hdrop : (writeWord e.key e.keyLen x).drop (e.keyLen + (key.length + 1)) =
        e.key.drop (e.keyLen + (key.length + 1)) := List.drop_set_of_lt (by omega)
    rw [List.foldl_cons, ih (e.push x) (by simp [Engine.push] at h ⊢; omega)]
    simp only [Engine.push, htake, hdrop, List.length_cons, List.append_assoc, List.singleton_append, Nat.add_assoc,
      Nat.add_comm 1]

/-- R83: a row of KPUSHes that fits runs through: each pushes its word and is answered `OK`. -/
theorem run_kpushes (n : Nat) (key : List (Word v)) (htgt : s.target = d) (hd : s.inst[d]? = some ⟨v, e⟩)
    (hfits : e.keyLen + key.length ≤ s.keyMax)
    (hin : s.inputs = key.map (fun x => .command d (encode v (.kpush x.toNat)).toNat) ++ rest) :
    Host.Core.run Sys2Proof.core (key.length + n) s = Host.Core.run Sys2Proof.core n { s with
      inputs := rest, inst := s.inst.set d ⟨v, key.foldl Engine.push e⟩
      responses := s.responses ++ List.replicate key.length ⟨d, v, .ok, 0⟩ } := by
  induction key generalizing s e with
  | nil =>
    obtain rfl : s.inputs = rest := hin
    simp only [List.length_nil, Nat.zero_add, List.foldl_nil, List.replicate_zero, set_target_self hd, List.append_nil]
  | cons x key ih =>
    rw [List.length_cons] at hfits
    have hstep := step_encoded_ok (e' := e.push x) hin hd (wellFormed_kpush x) (e.kpush_eq_push x (by simp; omega))
    rw [List.length_cons, Nat.add_right_comm, run_succ_of_step _ hstep,
      ih (e := e.push x) rfl (getElem?_set_target _ hd) (by simp [Engine.push]; omega) rfl]
    simp [htgt, List.replicate_succ]

end

/-! ## The obligations -/

/-- Settles O18: KCLR empties the buffer, the KPUSHes put the key in it, and SEEDK seeds from it. -/
theorem seedaSeedsFromItsKey : Obligations.SeedaSeedsFromItsKey := by
  unfold Obligations.SeedaSeedsFromItsKey
  intro s d v e key rest hd hsize hne hmax hin
  have hkclr := step_encoded_ok (i := .kclr) (rest := key.map (fun x => .command d (encode v (.kpush x.toNat)).toNat) ++
    (.command d (encode v .seedk).toNat :: rest)) (by simpa [AsmBody.expand, Function.comp_def] using hin) hd rfl rfl
  have hpushed : key.foldl Engine.push { e with keyLen := 0 } =
      { e with key := key ++ e.key.drop key.length, keyLen := key.length } := by
    rw [Engine.foldl_push _ _ (by simp; omega)]
    simp
  have hseedk := Engine.seedk_eq_ok { e with key := key ++ e.key.drop key.length, keyLen := key.length }
    (by simpa using hne)
  rw [List.take_left] at hseedk
  refine ⟨{ e with
    words := arrayInit key, cursor := v.N, key := key ++ e.key.drop key.length, keyLen := key.length },
    ?_, rfl, rfl, rfl, rfl⟩
  rw [run_succ_of_step _ hkclr, run_kpushes 1 key rfl (getElem?_set_target _ hd) (by simpa using hmax) rfl, hpushed,
    run_succ_of_step 0 (step_encoded_ok (i := .seedk) rfl (getElem?_set_target _ (getElem?_set_target _ hd)) rfl hseedk)]
  simp [Host.Core.run, List.replicate_succ, ← List.replicate_succ']

/-- Settles O19: KCLR empties the buffer, and SEEDK refuses an empty one. -/
theorem seedaWithoutKeyIsRefused : Obligations.SeedaWithoutKeyIsRefused := by
  unfold Obligations.SeedaWithoutKeyIsRefused
  intro s d v e rest hd hin
  have hkclr := step_encoded_ok (i := .kclr) (rest := .command d (encode v .seedk).toNat :: rest) hin hd rfl rfl
  have hseedk := Engine.seedk_eq_error { e with keyLen := 0 } rfl
  rw [run_succ_of_step 1 hkclr,
    run_succ_of_step 0 (step_encoded_error (i := .seedk) rfl (getElem?_set_target _ hd) rfl hseedk)]
  simp [Host.Core.run]

end Sys2Proof.Machine
end

section
/-! PROOFS. The seeding commands (spec/40_seeding.md R81 to R83, R85, R87): the words that decode to each, its effect on
the engine it is sent to, and what a seeding leaves of what that engine held before. -/

namespace Sys2Proof.Machine

section
variable {s t : State} {i : Instr} {v : Variant} {e e' : Engine v}

/-- R61: the opcode above any bits that hold the command's operand, if it has one, is a word of the command. -/
theorem decode_opcode_append (arg : Word v) (hlegal : i.legalOn v = true)
    (harg : ∀ a, i.operand = some a → arg.toNat = a) :
    decode v (i.opcode ++ arg : CommandWord v) = .command i := by
  rw [decode_of_opcode (congrArg _ (opField_append v _ arg)) (by rwa [argField_append]), if_pos hlegal]

theorem Engine.seed_toNat (arg : Word v) (e : Engine v) :
    e.seed arg.toNat = .ok ({ e with words := scalarInit arg, cursor := v.N }, 0) := by
  rw [Engine.seed, operandWord_toNat]

/-- R83: KPUSH on any buffer that is not full; with the count above `KEY_MAX`, which no
reachable state has, it writes too. -/
theorem Engine.kpush_eq_ok {keyMax : Nat} (e : Engine v) (x : Word v) (h : e.keyLen ≠ keyMax) :
    e.kpush keyMax x.toNat = .ok ({ e with key := e.key.set e.keyLen x, keyLen := e.keyLen + 1 }, 0) := by
  rw [Engine.kpush, if_neg (mt (Engine.keyFull_iff keyMax e).mp h), operandWord_toNat, writeWord]

theorem Engine.kpush_eq_error {keyMax : Nat} (e : Engine v) (arg : Nat) (h : e.keyLen = keyMax) :
    e.kpush keyMax arg = .error .keyOverflow :=
  if_pos ((Engine.keyFull_iff keyMax e).mpr h)

theorem exec_ok_target {x : Word v} (h : exec i s = .next t) (ht : s.inst[s.target]? = some ⟨v, e⟩)
    (hf : effect s i v e = .ok (e', x)) : t.inst[s.target]? = some ⟨v, e'⟩ := by
  cases (exec_eq_ok ht hf).symm.trans h
  exact getElem?_set_target _ ht

end

/-! ## The obligations -/

/-- Settles O11: SEED makes no check. -/
theorem seedResult : Obligations.SeedResult := by
  unfold Obligations.SeedResult
  exact ⟨fun v arg => decode_opcode_append (i := .seed arg.toNat) arg rfl fun _ => Option.some.inj,
    fun s v e arg ht => exec_eq_ok ht (e.seed_toNat arg)⟩

/-- Settles O13: KCLR makes no check. -/
theorem kclrResult : Obligations.KclrResult := by
  unfold Obligations.KclrResult
  exact ⟨fun v arg => decode_opcode_append (i := .kclr) arg rfl nofun, fun s v e ht => exec_eq_ok ht rfl⟩

/-- Settles O14, by whether the buffer is full. -/
theorem kpushResult : Obligations.KpushResult := by
  unfold Obligations.KpushResult
  refine ⟨fun v arg => decode_opcode_append (i := .kpush arg.toNat) arg rfl fun _ => Option.some.inj,
    fun s v e arg ht => ⟨fun hroom => ?_, fun hfull => ?_⟩⟩
  · exact exec_eq_ok ht (e.kpush_eq_ok arg hroom)
  · exact exec_eq_error ht (e.kpush_eq_error _ hfull)

/-- Settles O15, by whether the buffer is empty. -/
theorem seedkResult : Obligations.SeedkResult := by
  unfold Obligations.SeedkResult
  refine ⟨fun v arg => decode_opcode_append (i := .seedk) arg rfl nofun,
    fun s v e ht => ⟨fun hkey => ?_, fun hempty => ?_⟩⟩
  · exact exec_eq_ok ht (e.seedk_eq_ok hkey)
  · exact exec_eq_error ht (e.seedk_eq_error hempty)

/-- Settles O20: the words that SEED and SEEDK write are a function of the operand or of the valid key. -/
theorem seedingDiscardsPriorState : Obligations.SeedingDiscardsPriorState := by
  unfold Obligations.SeedingDiscardsPriorState
  rintro i s s' t t' v a b (⟨arg, rfl⟩ | ⟨rfl, hkey, hlen, htake⟩) hs ht hs' ht'
  · exact ⟨_, _, exec_ok_target hs' hs rfl, exec_ok_target ht' ht rfl, rfl, rfl⟩
  · exact ⟨_, _, exec_ok_target hs' hs (a.seedk_eq_ok hkey), exec_ok_target ht' ht (b.seedk_eq_ok (hlen ▸ hkey)),
      congrArg arrayInit htake, rfl⟩

end Sys2Proof.Machine
end

section
/-! PROOFS. The seeders as recurrences (spec/40_seeding.md R80, R84), with no array. `ScalarInit` is one induction over the
words. For `ArrayInit` the invariant `WritesAgree` holds the array against a sequence of written words; one write with its
advance of `i` keeps it (`WritesAgree.write`), whichever pass writes. -/

namespace Sys2Proof.Machine

/-! ## ScalarInit -/

/-- R80: in a word followed by its tail, each word gives the next. -/
theorem getElem?_cons_scalarTail {v : Variant} {n i j : Nat} {before x : Word v} (hj : j < n)
    (hx : (before :: scalarTail n i before)[j]? = some x) :
    (before :: scalarTail n i before)[j + 1]? = some (scalarStep (j + i) x) := by
  induction n generalizing i j before with
  | zero => omega
  | succ n ih =>
    cases j with
    | zero => cases hx; rw [Nat.zero_add i]; rfl
    | succ j => rw [Nat.add_right_comm j 1 i]; exact ih (Nat.lt_of_succ_lt_succ hj) hx

/-- Settles O12: the array is its first word followed by the tail. -/
theorem scalarInitRecurrence : Obligations.ScalarInitRecurrence := by
  unfold Obligations.ScalarInitRecurrence
  exact fun v seed => ⟨length_scalarInit seed, rfl, fun i x hi hx =>
    getElem?_cons_scalarTail (Nat.lt_sub_of_add_lt hi) hx⟩

/-! ## The indices of ArrayInit -/

/-- R84: the index that is written after `r` writes: 1 to `N-1`, round and round. -/
def mixSlot (v : Variant) (r : Nat) : Nat := r % (v.N - 1) + 1

section
variable {v : Variant}

theorem mixSlot_lt (v : Variant) (r : Nat) : mixSlot v r < v.N := by
  have := Variant_N_pos v
  have := Nat.mod_lt r (show 0 < v.N - 1 by omega)
  unfold mixSlot
  omega

theorem mixSlot_ne_zero (v : Variant) (r : Nat) : mixSlot v r ≠ 0 := Nat.succ_ne_zero _

/-- A counter that is set to 0 when it reaches `n` counts modulo `n`. -/
theorem succ_mod_eq_ite {n : Nat} (hn : 0 < n) (r : Nat) : (r + 1) % n = if r % n + 1 = n then 0 else r % n + 1 := by
  have hlt := Nat.mod_lt r hn
  rw [← Nat.mod_add_mod]
  split
  · next h => rw [h, Nat.mod_self]
  · exact Nat.mod_eq_of_lt (by omega)

theorem mixSlot_succ (v : Variant) (r : Nat) :
    mixSlot v (r + 1) = if mixSlot v r + 1 = v.N then 1 else mixSlot v r + 1 := by
  have := Variant_N_pos v
  unfold mixSlot
  rw [succ_mod_eq_ite (by omega)]
  split <;> split <;> omega

theorem mixSlot_add_round (v : Variant) (r : Nat) : mixSlot v (r + (v.N - 1)) = mixSlot v r := by
  rw [mixSlot, Nat.add_mod_right, mixSlot]

/-- Within one round no index is written twice. -/
theorem mixSlot_ne {r q : Nat} (h1 : r < q) (h2 : q < r + (v.N - 1)) : mixSlot v r ≠ mixSlot v q := by
  intro h
  have hmod : r ≡ q [MOD v.N - 1] := Nat.succ.inj h
  have := Nat.le_of_dvd (by omega) ((Nat.modEq_iff_dvd' h1.le).mp hmod)
  omega

/-! ## The advance of `i` -/

theorem Mix.advanceI_i (m : Mix v) : m.advanceI.i = if m.i + 1 = v.N then 1 else m.i + 1 := by
  unfold Mix.advanceI
  split <;> rfl

/-- The advance touches index 0 alone. -/
theorem Mix.readWord_advanceI_ne (m : Mix v) {j : Nat} (hj : j ≠ 0) : readWord m.advanceI.t j = readWord m.t j := by
  unfold Mix.advanceI
  split
  · exact readWord_writeWord_ne _ _ _ _ hj.symm
  · rfl

/-- After the advance, the word before index `i` is the one that was at index `i`. -/
theorem Mix.readWord_advanceI_before (m : Mix v) (hsize : 0 < m.t.length) :
    readWord m.advanceI.t (m.advanceI.i - 1) = readWord m.t m.i := by
  unfold Mix.advanceI
  split
  · next hwrap => exact (readWord_writeWord_self _ _ _ hsize).trans (by rw [← hwrap, Nat.add_sub_cancel])
  · rfl

/-! ## The array of ArrayInit against the sequence of its writes -/

/-- R84: the word that write `r` of a sequence `u` finds at its index: of the base array in the first round, of the round
before otherwise. -/
def mixOld (u : Nat → Word v) (r : Nat) : Word v :=
  if r < v.N then readWord (scalarInit v.keyBaseSeed) r else u (r - (v.N - 1))

/-- R84: after `r` writes of a sequence `u`, the array holds the last of them before index `i` (carried over to index 0 at
the end of a round), and at the index of each write of the next round the word which that write finds. -/
structure WritesAgree (u : Nat → Word v) (r : Nat) (m : Mix v) : Prop where
  size : m.t.length = v.N
  index : m.i = mixSlot v r
  last : readWord m.t (m.i - 1) = u r
  cells : ∀ q, r ≤ q → q < r + (v.N - 1) → readWord m.t (mixSlot v q) = mixOld u (q + 1)

variable {u : Nat → Word v} {r : Nat} {m : Mix v}

theorem WritesAgree.start (j : Nat) (h0 : u 0 = readWord (scalarInit v.keyBaseSeed) 0) :
    WritesAgree u 0 ⟨scalarInit v.keyBaseSeed, 1, j⟩ where
  size := length_scalarInit _
  index := by rw [mixSlot, Nat.zero_mod]
  last := h0.symm
  cells q _ hq := by
    rw [Nat.zero_add] at hq
    rw [mixSlot, Nat.mod_eq_of_lt hq, mixOld, if_pos (by omega)]

/-- R84: what both passes start from. -/
theorem WritesAgree.mixed_eq (h : WritesAgree u r m) (f : Word v) :
    m.mixed f = mixOld u (r + 1) ^^^ (foldShift (u r) * f) := by
  have hcell := h.cells r le_rfl (by have := Variant_N_pos v; omega)
  rw [Mix.mixed, h.last, h.index, hcell]

/-- One write at `i`, before `i` advances, leaves the cells of the rest of the round and puts in place that of the next. -/
theorem WritesAgree.write_cells (h : WritesAgree u r m) {q : Nat} (h1 : r < q) (h2 : q ≤ r + (v.N - 1)) :
    readWord (writeWord m.t m.i (u (r + 1))) (mixSlot v q) = mixOld u (q + 1) := by
  rw [h.index]
  obtain rfl | hlt := h2.eq_or_lt
  · rw [mixSlot_add_round, readWord_writeWord_self _ _ _ (h.size ▸ mixSlot_lt v r), mixOld, if_neg (by omega)]
    congr 1
    omega
  · rw [readWord_writeWord_ne _ _ _ _ (mixSlot_ne h1 hlt), h.cells q h1.le hlt]

/-- R84: one write and the advance of `i`, in either pass. -/
theorem WritesAgree.write (h : WritesAgree u r m) :
    WritesAgree u (r + 1) (Mix.advanceI { m with t := writeWord m.t m.i (u (r + 1)) }) where
  size := by simp [h.size]
  index := by rw [Mix.advanceI_i, mixSlot_succ, h.index]
  last := by
    have hi : m.i < m.t.length := by rw [h.size, h.index]; exact mixSlot_lt v r
    rw [Mix.readWord_advanceI_before _ (by simp; omega), readWord_writeWord_self _ _ _ hi]
  cells q h1 h2 := by
    rw [Mix.readWord_advanceI_ne _ (mixSlot_ne_zero v q)]
    exact h.write_cells h1 (by omega)

/-- `WritesAgree` does not speak of `j`. -/
theorem WritesAgree.advanceJ (h : WritesAgree u r m) (len : Nat) : WritesAgree u r (m.advanceJ len) :=
  ⟨h.size, h.index, h.last, h.cells⟩

/-! ## The two passes -/

/-- R84: the sequence obeys phase 2 at write `r + 1`, whose key index is `j`. -/
def ObeysPass1 (key : List (Word v)) (u : Nat → Word v) (r j : Nat) : Prop :=
  u (r + 1) = (mixOld u (r + 1) ^^^ (foldShift (u r) * v.keyMult1)) + readWord key j + indexWord v j

/-- R84: the sequence obeys phase 3 at write `r + 1`. -/
def ObeysPass2 (u : Nat → Word v) (r : Nat) : Prop :=
  u (r + 1) = (mixOld u (r + 1) ^^^ (foldShift (u r) * v.keyMult2)) - indexWord v (mixSlot v r)

theorem WritesAgree.pass1 {key : List (Word v)} (h : WritesAgree u r m) (hu : ObeysPass1 key u r m.j) :
    WritesAgree u (r + 1) (m.pass1 key) := by
  rw [Mix.pass1, h.mixed_eq, ← hu]
  exact h.write.advanceJ _

theorem WritesAgree.pass2 (h : WritesAgree u r m) (hu : ObeysPass2 u r) : WritesAgree u (r + 1) m.pass2 := by
  rw [Mix.pass2, h.mixed_eq, h.index, ← hu, ← h.index]
  exact h.write

theorem Mix.pass1_j (key : List (Word v)) (m : Mix v) :
    (m.pass1 key).j = if m.j + 1 = key.length then 0 else m.j + 1 := by
  unfold Mix.pass1 Mix.advanceI
  split <;> rfl

/-- What each round takes from one count to the next, `n` rounds take `n` counts on. -/
theorem repeatTimes_counts {α : Type} {f : α → α} {P : Nat → α → Prop} {n k : Nat} {x : α}
    (hf : ∀ c x, k ≤ c → c < k + n → P c x → P (c + 1) (f x)) (hx : P k x) : P (k + n) (repeatTimes f n x) := by
  induction n with
  | zero => exact hx
  | succ n ih =>
    rw [repeatTimes_succ]
    exact hf _ _ (Nat.le_add_right k n) (Nat.lt_succ_self _) (ih fun c x h1 h2 => hf c x h1 (Nat.lt_succ_of_lt h2))

theorem WritesAgree.repeat_pass1 {key : List (Word v)} {n : Nat} (hkey : 0 < key.length) (h : WritesAgree u 0 m)
    (hj : m.j = 0) (hu : ∀ r < n, ObeysPass1 key u r (r % key.length)) :
    WritesAgree u n (repeatTimes (Mix.pass1 key) n m) := by
  have hcount := repeatTimes_counts (f := Mix.pass1 key) (P := fun r m => WritesAgree u r m ∧ m.j = r % key.length)
    (n := n) (k := 0) (x := m) (fun r m _ hr ⟨hm, hmj⟩ => ?_) ⟨h, by rw [hj, Nat.zero_mod]⟩
  · rw [Nat.zero_add] at hcount
    exact hcount.1
  · exact ⟨hm.pass1 (hmj ▸ hu r (by omega)), by rw [Mix.pass1_j, hmj, succ_mod_eq_ite hkey]⟩

theorem WritesAgree.repeat_pass2 {k n : Nat} (h : WritesAgree u k m) (hu : ∀ r, k ≤ r → r < k + n → ObeysPass2 u r) :
    WritesAgree u (k + n) (repeatTimes Mix.pass2 n m) :=
  repeatTimes_counts (P := WritesAgree u) (fun r _ h1 h2 hm => hm.pass2 (hu r h1 h2)) h

/-- R84: the result, where the sequence obeys both passes: above word 0, the last `N-1` words written. -/
theorem readWord_arrayInit {key : List (Word v)} (hkey : 0 < key.length)
    (h0 : u 0 = readWord (scalarInit v.keyBaseSeed) 0)
    (h1 : ∀ r < max v.N key.length, ObeysPass1 key u r (r % key.length))
    (h2 : ∀ r, max v.N key.length ≤ r → r < max v.N key.length + (v.N - 1) → ObeysPass2 u r)
    (hr1 : max v.N key.length ≤ r) (hr2 : r < max v.N key.length + (v.N - 1)) :
    readWord (arrayInit key) (mixSlot v r) = u (r + 1) := by
  have hend := ((WritesAgree.start 0 h0).repeat_pass1 hkey rfl h1).repeat_pass2 h2
  have hcell := hend.cells (r + (v.N - 1)) (by omega) (by omega)
  rw [mixSlot_add_round, mixOld, if_neg (by omega)] at hcell
  rw [arrayInit, readWord_writeWord_ne _ _ _ _ (mixSlot_ne_zero v r).symm, hcell]
  congr 1
  omega

theorem topBit_eq (v : Variant) : v.topBit = BitVec.ofNat v.W (2 ^ (v.W - 1)) := by cases v <;> rfl

end

theorem getElem?_arrayInit_zero {v : Variant} (key : List (Word v)) : (arrayInit key)[0]? = some v.topBit := by
  have hlen : 0 < (arrayInit key).length := by rw [length_arrayInit]; exact (Variant_N_pos v).le
  rw [getElem?_eq_readWord hlen, arrayInit, readWord_writeWord_self]
  simpa [arrayInit] using hlen

/-- Settles O17: the hypotheses on the sequence are `ObeysPass1` and `ObeysPass2` at its writes. -/
theorem arrayInitIsMixingRecurrence : Obligations.ArrayInitIsMixingRecurrence := by
  unfold Obligations.ArrayInitIsMixingRecurrence
  intro v key u hne h0 h1 h2
  have hN := Variant_N_pos v
  have hkey : 0 < key.length := List.length_pos_iff.mpr hne
  have hstart : u 0 = readWord (scalarInit v.keyBaseSeed) 0 := (readWord_eq_of_getElem? h0.symm).symm
  have hpass1 : ∀ r < max v.N key.length, ObeysPass1 key u r (r % key.length) := fun r hr =>
    h1 (r + 1) (mixOld u (r + 1)) (readWord key (r % key.length)) (by omega) hr (by
      unfold mixOld
      split
      · next hlt => exact getElem?_eq_readWord (by rwa [length_scalarInit])
      · rfl) (getElem?_eq_readWord (Nat.mod_lt _ hkey))
  have hpass2 : ∀ r, max v.N key.length ≤ r → r < max v.N key.length + (v.N - 1) → ObeysPass2 u r := by
    intro r hr1 hr2
    rw [ObeysPass2, mixOld, if_neg (by omega)]
    exact h2 (r + 1) (by omega) (by omega)
  refine ⟨length_arrayInit key, topBit_eq v ▸ getElem?_arrayInit_zero key, fun r hr1 hr2 => ?_⟩
  obtain ⟨r, rfl⟩ : ∃ k, r = k + 1 := ⟨r - 1, by omega⟩
  rw [Nat.add_sub_cancel, ← readWord_arrayInit hkey hstart hpass1 hpass2 (by omega) (by omega)]
  exact getElem?_eq_readWord (by rw [length_arrayInit]; exact mixSlot_lt v r)

end Sys2Proof.Machine
end

section
/-! PROOFS. Bits 30 to 0 of the seeded word 0 (spec/40_seeding.md R86): the first iteration of a twist reads word 0 under
`UPPER_MASK` and overwrites it, and reads no other word at index 0. -/

namespace Sys2Proof.Machine

section
variable {v : Variant}

theorem upperMask_getLsbD_of_lt {j : Nat} (hj : j < 31) : v.upperMask.getLsbD j = false := by
  cases v with
  | mt32 => exact (by decide : ∀ j < 31, (Variant.upperMask .mt32).getLsbD j = false) j hj
  | mt64 => exact (by decide : ∀ j < 31, (Variant.upperMask .mt64).getLsbD j = false) j hj

theorem and_upperMask_eq {x y : Word v} (h : ∀ j, 31 ≤ j → x.getLsbD j = y.getLsbD j) :
    x &&& v.upperMask = y &&& v.upperMask := by
  refine BitVec.eq_of_getLsbD_eq fun j _ => ?_
  rw [BitVec.getLsbD_and, BitVec.getLsbD_and]
  by_cases hj : 31 ≤ j
  · rw [h j hj]
  · rw [upperMask_getLsbD_of_lt (Nat.not_le.mp hj), Bool.and_false, Bool.and_false]

/-- R100: `TwistElem(a, b)` reads of `a` the bits from 31 up. -/
theorem twistElem_congr_left {x y : Word v} (b : Word v) (h : ∀ j, 31 ≤ j → x.getLsbD j = y.getLsbD j) :
    twistElem x b = twistElem y b := by
  rw [twistElem, and_upperMask_eq h, twistElem]

/-- R101: the first iteration of a twist takes away what word 0 had below bit 31. -/
theorem twistAt_zero_set {ws : List (Word v)} {x y : Word v} (hx : ws[0]? = some x)
    (h : ∀ j, 31 ≤ j → x.getLsbD j = y.getLsbD j) : twistAt (ws.set 0 y) 0 = twistAt ws 0 := by
  have hpos : 0 < ws.length := (List.getElem?_eq_some_iff.mp hx).1
  have hfar : farIndex v 0 ≠ 0 := by
    rw [farIndex, Nat.zero_add, Nat.mod_eq_of_lt (Variant_M_lt_N v)]
    exact (Variant_M_pos v).ne'
  have hsucc : succIndex v 0 ≠ 0 := by
    rw [succIndex, Nat.zero_add, Nat.mod_eq_of_lt (Variant_N_pos v)]
    exact Nat.one_ne_zero
  change twistAt (writeWord ws 0 y) 0 = twistAt ws 0
  rw [twistAt, twistAt, readWord_writeWord_ne _ _ _ _ hfar.symm, readWord_writeWord_ne _ _ _ _ hsucc.symm,
    readWord_writeWord_self _ _ _ hpos, readWord_eq_of_getElem? hx, twistElem_congr_left _ h, writeWord, writeWord,
    List.set_set, writeWord]

theorem twist_eq_foldl_twistAt_zero (ws : List (Word v)) :
    twist ws = (List.range' 1 (v.N - 1)).foldl twistAt (twistAt ws 0) := by
  have hN : v.N = v.N - 1 + 1 := (Nat.sub_add_cancel (Variant_N_pos v).le).symm
  rw [twist, List.range_eq_range', hN, List.range'_succ, List.foldl_cons, Nat.add_sub_cancel]

end

/-- Settles O21: the two arrays are one after the first iteration. -/
theorem lowBitsOfSeededWordZeroUnused : Obligations.LowBitsOfSeededWordZeroUnused := by
  unfold Obligations.LowBitsOfSeededWordZeroUnused
  intro v ws x y _ hx h
  rw [twist_eq_foldl_twistAt_zero, twistAt_zero_set hx h, ← twist_eq_foldl_twistAt_zero]

end Sys2Proof.Machine
end

section
/-! PROOFS. The twist and the tempering (spec/41_generation.md R100 to R104). `TwistElem` is read bit by bit through its
two masks. A twist is taken apart into its first `n` iterations: below `n` they have left the new words, from `n` on the
old ones still stand. -/

namespace Sys2Proof.Machine

section
variable {v : Variant}

/-! ## TwistElem -/

/-- R2: `LOWER_MASK` is bits 30 to 0, the number `2^31 - 1`. -/
theorem lowerMask_getLsbD (v : Variant) (j : Nat) : v.lowerMask.getLsbD j = decide (j < 31) := by
  cases v <;> exact Nat.testBit_two_pow_sub_one 31 j

/-- R2: `UPPER_MASK` is every other bit of the word. -/
theorem upperMask_getLsbD {j : Nat} (hj : j < v.W) : v.upperMask.getLsbD j = decide (31 ≤ j) := by
  simp only [upperMask_lowerMask, BitVec.getLsbD_not, lowerMask_getLsbD, hj, ← decide_not, Nat.not_lt, decide_true,
    Bool.true_and]

/-- R100: the word `y` is the bits of `a` from 31 up, above the bits of `b` below 31. -/
theorem getLsbD_joinMasked (a b : Word v) (j : Nat) :
    ((a &&& v.upperMask) ||| (b &&& v.lowerMask)).getLsbD j = if 31 ≤ j then a.getLsbD j else b.getLsbD j := by
  rw [BitVec.getLsbD_or, BitVec.getLsbD_and, BitVec.getLsbD_and, lowerMask_getLsbD]
  by_cases hW : j < v.W
  · by_cases hj : 31 ≤ j
    · simp [upperMask_getLsbD hW, hj]
    · simp [upperMask_getLsbD hW, hj, Nat.not_le.mp hj]
  · simp [BitVec.getLsbD_of_ge _ _ (Nat.not_lt.mp hW)]

/-- R100: `y[0]` is bit 0 of `b`. -/
theorem getLsbD_twistElem (a b : Word v) (j : Nat) :
    (twistElem a b).getLsbD j =
      ((if 31 ≤ j + 1 then a.getLsbD (j + 1) else b.getLsbD (j + 1)) ^^ (b.getLsbD 0 && v.matrix.getLsbD j)) := by
  have hshift : (((a &&& v.upperMask) ||| (b &&& v.lowerMask)) >>> 1).getLsbD j =
      if 31 ≤ j + 1 then a.getLsbD (j + 1) else b.getLsbD (j + 1) := by
    rw [BitVec.getLsbD_ushiftRight, getLsbD_joinMasked, Nat.add_comm]
  have hodd : ((a &&& v.upperMask) ||| (b &&& v.lowerMask)).getLsbD 0 = b.getLsbD 0 := getLsbD_joinMasked a b 0
  simp only [twistElem, hodd]
  cases b.getLsbD 0 with
  | true => rw [if_pos rfl, BitVec.getLsbD_xor, hshift, Bool.true_and]
  | false => rw [if_neg Bool.false_ne_true, hshift, Bool.false_and, Bool.xor_false]

/-! ## The first iterations of a twist -/

/-- R101: the array after the first `n` iterations of a twist. -/
def twistFirst (n : Nat) (ws : List (Word v)) : List (Word v) := (List.range n).foldl twistAt ws

theorem twistFirst_N (ws : List (Word v)) : twistFirst v.N ws = twist ws := rfl

theorem twistFirst_succ (n : Nat) (ws : List (Word v)) : twistFirst (n + 1) ws = twistAt (twistFirst n ws) n := by
  rw [twistFirst, List.range_succ, List.foldl_concat, twistFirst]

@[simp] theorem length_twistFirst (n : Nat) (ws : List (Word v)) : (twistFirst n ws).length = ws.length :=
  length_foldl_twistAt _ ws

/-- R101: iteration `k` writes word `k` alone. -/
theorem readWord_twistAt_ne (ws : List (Word v)) {k j : Nat} (h : k ≠ j) : readWord (twistAt ws k) j = readWord ws j :=
  readWord_writeWord_ne _ _ _ _ h

theorem readWord_twistAt_self (ws : List (Word v)) {k : Nat} (h : k < ws.length) :
    readWord (twistAt ws k) k =
      readWord ws (farIndex v k) ^^^ twistElem (readWord ws k) (readWord ws (succIndex v k)) :=
  readWord_writeWord_self _ _ _ h

/-- A word whose turn has not come is the old one. -/
theorem readWord_twistFirst_of_le (ws : List (Word v)) {n j : Nat} (h : n ≤ j) :
    readWord (twistFirst n ws) j = readWord ws j := by
  induction n with
  | zero => rfl
  | succ n ih => rw [twistFirst_succ, readWord_twistAt_ne _ (by omega), ih (by omega)]

/-- A word whose turn has come is not written again. -/
theorem readWord_twistFirst_of_lt (ws : List (Word v)) {m n j : Nat} (hj : j < m) (h : m ≤ n) :
    readWord (twistFirst n ws) j = readWord (twistFirst m ws) j := by
  induction n, h using Nat.le_induction with
  | base => rfl
  | succ n hmn ih => rw [twistFirst_succ, readWord_twistAt_ne _ (by omega), ih]

/-- R45: what iteration `k` of a twist reads at index `j`: the new word below `k`, the old one from `k` on. -/
theorem readWord_twistFirst (ws : List (Word v)) {k : Nat} (hk : k ≤ v.N) (j : Nat) :
    readWord (twistFirst k ws) j = if j < k then readWord (twist ws) j else readWord ws j := by
  split
  · next hj => rw [← twistFirst_N, readWord_twistFirst_of_lt ws hj hk]
  · next hj => exact readWord_twistFirst_of_le ws (Nat.not_lt.mp hj)

/-- R101: a new word, from the array that its iteration finds. -/
theorem readWord_twist (ws : List (Word v)) {k : Nat} (hsize : ws.length = v.N) (hk : k < v.N) :
    readWord (twist ws) k = readWord (twistFirst k ws) (farIndex v k) ^^^
      twistElem (readWord ws k) (readWord (twistFirst k ws) (succIndex v k)) := by
  rw [← twistFirst_N, readWord_twistFirst_of_lt ws (Nat.lt_succ_self k) hk, twistFirst_succ,
    readWord_twistAt_self _ (by rwa [length_twistFirst, hsize]), readWord_twistFirst_of_le ws le_rfl]

/-! ## The three groups of indices -/

theorem succIndex_of_lt {k : Nat} (h : k + 1 < v.N) : succIndex v k = k + 1 := Nat.mod_eq_of_lt h

theorem farIndex_of_lt {k : Nat} (h : k + v.M < v.N) : farIndex v k = k + v.M := Nat.mod_eq_of_lt h

/-- R41: from index `N-M` on, the far index wraps around, to an index the pass has been at. -/
theorem farIndex_of_le {k : Nat} (h : v.N ≤ k + v.M) (hk : k < v.N) : farIndex v k = k + v.M - v.N := by
  have := Variant_M_lt_N v
  rw [farIndex, Nat.mod_eq_sub_mod h, Nat.mod_eq_of_lt (by omega)]

theorem readWord_twist_of_far_old (ws : List (Word v)) {k : Nat} (hsize : ws.length = v.N) (hk : k + v.M < v.N) :
    readWord (twist ws) k = readWord ws (k + v.M) ^^^ twistElem (readWord ws k) (readWord ws (k + 1)) := by
  have := Variant_M_pos v
  rw [readWord_twist ws hsize (by omega), farIndex_of_lt hk, succIndex_of_lt (by omega),
    readWord_twistFirst_of_le ws (by omega), readWord_twistFirst_of_le ws (by omega)]

theorem readWord_twist_of_far_new (ws : List (Word v)) {k : Nat} (hsize : ws.length = v.N) (hfar : v.N ≤ k + v.M)
    (hk : k + 1 < v.N) :
    readWord (twist ws) k =
      readWord (twist ws) (k + v.M - v.N) ^^^ twistElem (readWord ws k) (readWord ws (k + 1)) := by
  have := Variant_M_lt_N v
  rw [readWord_twist ws hsize (by omega), farIndex_of_le hfar (by omega), succIndex_of_lt hk,
    readWord_twistFirst ws (by omega), if_pos (by omega), readWord_twistFirst_of_le ws (by omega)]

theorem readWord_twist_last (ws : List (Word v)) {k : Nat} (hsize : ws.length = v.N) (hk : k = v.N - 1) :
    readWord (twist ws) k =
      readWord (twist ws) (v.M - 1) ^^^ twistElem (readWord ws k) (readWord (twist ws) 0) := by
  have hN := Variant_N_pos v
  have hM := Variant_M_pos v
  have hMN := Variant_M_lt_N v
  have hfar : farIndex v k = v.M - 1 := by rw [farIndex_of_le (by omega) (by omega)]; omega
  have hsucc : succIndex v k = 0 := by rw [succIndex, hk, Nat.sub_add_cancel hN.le, Nat.mod_self]
  rw [readWord_twist ws hsize (by omega), hfar, hsucc, readWord_twistFirst ws (by omega), if_pos (by omega),
    readWord_twistFirst ws (by omega), if_pos (by omega)]

end

/-! ## The stages of the tempering -/

section
variable {w : Nat} (y m : BitVec w) (k : Nat)

theorem toNat_xor_ushiftRight : (y ^^^ (y >>> k)).toNat = y.toNat ^^^ y.toNat / 2 ^ k := by
  rw [BitVec.toNat_xor, BitVec.toNat_ushiftRight, Nat.shiftRight_eq_div_pow]

theorem toNat_xor_ushiftRight_and : (y ^^^ ((y >>> k) &&& m)).toNat = y.toNat ^^^ (y.toNat / 2 ^ k &&& m.toNat) := by
  rw [BitVec.toNat_xor, BitVec.toNat_and, BitVec.toNat_ushiftRight, Nat.shiftRight_eq_div_pow]

theorem toNat_xor_shiftLeft_and :
    (y ^^^ ((y <<< k) &&& m)).toNat = y.toNat ^^^ (y.toNat * 2 ^ k % 2 ^ w &&& m.toNat) := by
  rw [BitVec.toNat_xor, BitVec.toNat_and, BitVec.toNat_shiftLeft, Nat.shiftLeft_eq]

end

/-! ## The obligations -/

/-- Settles O22, from the bits of `y` and the parity of `b`. -/
theorem twistElemBits : Obligations.TwistElemBits := by
  unfold Obligations.TwistElemBits
  exact fun v a b j _ => getLsbD_twistElem a b j

/-- Settles O23, by the group of the index. -/
theorem twistOrderFree : Obligations.TwistOrderFree := by
  unfold Obligations.TwistOrderFree
  refine fun v old hsize => ⟨(length_twist old).trans hsize, fun k hk => ⟨fun h => ?_, fun h1 h2 => ?_, fun h => ?_⟩⟩
  · exact readWord_twist_of_far_old old hsize (by omega)
  · exact readWord_twist_of_far_new old hsize (by omega) (by omega)
  · exact readWord_twist_last old hsize h

/-- Settles O24, stage by stage. -/
theorem temperAsArithmetic : Obligations.TemperAsArithmetic := by
  unfold Obligations.TemperAsArithmetic
  constructor
  · intro x y1 y2 y3
    simp only [temper, temper32, toNat_xor_ushiftRight, toNat_xor_shiftLeft_and]
    rfl
  · intro x y1 y2 y3
    simp only [temper, temper64, toNat_xor_ushiftRight, toNat_xor_ushiftRight_and, toNat_xor_shiftLeft_and]
    rfl

end Sys2Proof.Machine
end

section
/-! PROOFS. The extraction commands (spec/41_generation.md R105 to R108): NEXT, NEXT32, and a row of both after a
seeding. The engine that `n` extractions leave is given outright (`Engine.afterExtractions`); one more extraction takes
it to that of `n + 1`, whether it twists or not. -/

namespace Sys2Proof.Machine

/-! ## NEXT32 on each variant -/

theorem low32_eq_ofNat {v : Variant} (x : Word v) : low32 x = BitVec.ofNat v.W (x.toNat % 2 ^ 32) := by
  refine BitVec.eq_of_toNat_eq ?_
  rw [low32, BitVec.toNat_setWidth, BitVec.toNat_setWidth, BitVec.toNat_ofNat]

theorem low32_eq_and (x : Word .mt64) : low32 x = x &&& 0xFFFFFFFF#64 := by
  refine BitVec.eq_of_toNat_eq ?_
  have hlt : x.toNat % 2 ^ 32 < 2 ^ 64 := by omega
  rw [low32_eq_ofNat, BitVec.toNat_ofNat, Nat.mod_eq_of_lt hlt, BitVec.toNat_and]
  exact (Nat.and_two_pow_sub_one_eq_mod x.toNat 32).symm

theorem Engine.next32_eq_ok {e e' : Engine .mt64} {x : Word .mt64} (h : e.extract = .ok (e', x)) :
    e.next32 = .ok (e', low32 x) := by
  rw [Engine.next32, h, Except.map]

theorem Engine.next32_eq_error {e : Engine .mt64} {err : Error} (h : e.extract = .error err) :
    e.next32 = .error err := by
  rw [Engine.next32, h, Except.map]

section
variable {v : Variant} {e : Engine v}

/-! ## A row of extractions on one engine -/

/-- R107, R108: what `n` extractions after a seeding leave of the engine `e`. -/
def Engine.afterExtractions (e : Engine v) (n : Nat) : Engine v :=
  { e with words := Machine.twist^[(n + v.N - 1) / v.N] e.words, cursor := (n + v.N - 1) % v.N + 1 }

/-- R107: the word that extraction number `k + 1` reads. -/
def Engine.wordAt (e : Engine v) (k : Nat) : Word v := readWord (Machine.twist^[k / v.N + 1] e.words) (k % v.N)

/-- R108: after whole blocks the cursor is at the end, and the next twist is still to come. -/
theorem Engine.afterExtractions_of_mod_eq_zero (e : Engine v) {n : Nat} (h : n % v.N = 0) :
    e.afterExtractions n = { e with words := Machine.twist^[n / v.N] e.words, cursor := v.N } := by
  have hN := Variant_N_pos v
  have hdiv := Nat.div_add_mod n v.N
  have hlast : n + v.N - 1 = v.N - 1 + v.N * (n / v.N) := by omega
  rw [Engine.afterExtractions, hlast, Nat.add_mul_div_left _ _ (by omega), Nat.div_eq_of_lt (by omega),
    Nat.add_mul_mod_self_left, Nat.mod_eq_of_lt (by omega), Nat.zero_add, Nat.sub_add_cancel hN.le]

/-- R108: inside a block, its twist is done and the cursor counts its words. -/
theorem Engine.afterExtractions_of_mod_ne_zero (e : Engine v) {n : Nat} (h : n % v.N ≠ 0) :
    e.afterExtractions n = { e with words := Machine.twist^[n / v.N + 1] e.words, cursor := n % v.N } := by
  have hmod := Nat.mod_lt n (show 0 < v.N from (Variant_N_pos v).le)
  have hdiv := Nat.div_add_mod n v.N
  have hinside : n + v.N - 1 = n % v.N - 1 + v.N * (n / v.N + 1) := by rw [Nat.mul_add]; omega
  rw [Engine.afterExtractions, hinside, Nat.add_mul_div_left _ _ (by omega), Nat.div_eq_of_lt (by omega),
    Nat.add_mul_mod_self_left, Nat.mod_eq_of_lt (by omega), Nat.zero_add, Nat.sub_add_cancel (by omega)]

theorem Engine.afterExtractions_zero (h : e.cursor = v.N) : e.afterExtractions 0 = e := by
  rw [Engine.afterExtractions_of_mod_eq_zero e (Nat.zero_mod _), Nat.zero_div, ← h, Function.iterate_zero_apply]

/-- R108: the cursor after at least one extraction, as the rule writes it. -/
theorem Engine.afterExtractions_of_pos (e : Engine v) {n : Nat} (hn : 0 < n) : e.afterExtractions n =
    { e with words := Machine.twist^[(n + v.N - 1) / v.N] e.words, cursor := (n - 1) % v.N + 1 } := by
  have hcursor : (n + v.N - 1) % v.N = (n - 1) % v.N := by rw [Nat.sub_add_comm hn, Nat.add_mod_right]
  rw [Engine.afterExtractions, hcursor]

/-- R108: `ceil((n+1) / N)` twists and the cursor at `(n mod N) + 1`. -/
theorem Engine.afterExtractions_succ (e : Engine v) (n : Nat) : e.afterExtractions (n + 1) =
    { e with words := Machine.twist^[n / v.N + 1] e.words, cursor := n % v.N + 1 } := by
  have hN := Variant_N_pos v
  rw [Engine.afterExtractions, Nat.add_right_comm, Nat.add_sub_cancel, Nat.add_div_right n (by omega),
    Nat.add_mod_right]

/-- R105: at the end of a block the extraction twists, otherwise it goes on in the block. -/
theorem Engine.extract_afterExtractions (e : Engine v) (n : Nat) :
    (e.afterExtractions n).extract = .ok (e.afterExtractions (n + 1), temper (e.wordAt n)) := by
  rw [Engine.afterExtractions_succ, Engine.wordAt]
  by_cases hend : n % v.N = 0
  · rw [Engine.afterExtractions_of_mod_eq_zero e hend, Engine.extract_eq_of_eq _ rfl, hend,
      Function.iterate_succ_apply']
  · have hmod := Nat.mod_lt n (show 0 < v.N from (Variant_N_pos v).le)
    rw [Engine.afterExtractions_of_mod_ne_zero e hend, Engine.extract_eq_of_lt _ hmod]

/-! ## A row of extraction commands -/

/-- R105, R106: the extraction command, NEXT32 where `narrow` says so. -/
def Instr.extraction (narrow : Bool) : Instr := if narrow then .next32 else .next

/-- R105, R106: the data of an extraction command that reads and tempers to `x`. -/
def extractionData (narrow : Bool) (x : Word v) : Word v :=
  if narrow then BitVec.ofNat v.W (x.toNat % 2 ^ 32) else x

/-- R107: the response to extraction number `k + 1` of the engine `e`, `p` being its kind and `k`. -/
def extractionResponse (d : Nat) (e : Engine v) (p : Bool × Nat) : Response :=
  ⟨d, v, .ok, extractionData p.1 (temper (e.wordAt p.2))⟩

theorem Instr.wellFormed_extraction {b : Bool} (hb : v = .mt32 → b = false) :
    (Instr.extraction b).wellFormed v = true := by
  cases v with
  | mt32 => rw [hb rfl]; rfl
  | mt64 => cases b <;> rfl

theorem effect_extraction {s : State} {b : Bool} {e' : Engine v} {x : Word v} (hb : v = .mt32 → b = false)
    (h : e.extract = .ok (e', x)) :
    effect s (Instr.extraction b) v e = .ok (e', extractionData b x) := by
  cases b with
  | false => exact h
  | true =>
    cases v with
    | mt32 => cases hb rfl
    | mt64 => exact (Engine.next32_eq_ok h).trans (by rw [low32_eq_ofNat]; rfl)

/-- One extraction command, sent to an engine that has had `n` since its seeding. -/
theorem step_extraction {s : State} {d n : Nat} {b : Bool} {rest : List Input} (hb : v = .mt32 → b = false)
    (hd : s.inst[d]? = some ⟨v, e.afterExtractions n⟩)
    (hin : s.inputs = .command d (encode v (Instr.extraction b)).toNat :: rest) :
    step s = .next { s with
      target := d, inputs := rest, inst := s.inst.set d ⟨v, e.afterExtractions (n + 1)⟩
      responses := s.responses ++ [extractionResponse d e (b, n)] } :=
  step_encoded_ok hin hd (Instr.wellFormed_extraction hb) (effect_extraction hb (e.extract_afterExtractions n))

/-- A row of one or more extraction commands, sent to an engine that has had `n` since its seeding. -/
theorem run_extractions {s : State} {d n : Nat} {b : Bool} {row : List Bool} {rest : List Input}
    (hrow : v = .mt32 → ∀ c ∈ b :: row, c = false) (hd : s.inst[d]? = some ⟨v, e.afterExtractions n⟩)
    (hin : s.inputs = (b :: row).map (fun c => .command d (encode v (Instr.extraction c)).toNat) ++ rest) :
    Host.Core.run Sys2Proof.core (row.length + 1) s = .next { s with
      target := d, inputs := rest, inst := s.inst.set d ⟨v, e.afterExtractions (n + row.length + 1)⟩
      responses := s.responses ++ ((b :: row).zipIdx n).map (extractionResponse d e) } := by
  induction row generalizing s n b with
  | nil => exact run_succ_of_step 0 (step_extraction (fun hv => hrow hv b (by simp)) hd hin)
  | cons c row ih =>
    rw [List.length_cons, run_succ_of_step _ (step_extraction (fun hv => hrow hv b (by simp)) hd hin),
      ih (fun hv x hx => hrow hv x (List.mem_cons_of_mem b hx)) (getElem?_set_target _ hd) rfl]
    simp only [List.set_set, List.append_assoc, List.singleton_append, List.zipIdx_cons, List.map_cons,
      Nat.add_right_comm n 1, Nat.add_assoc]

end

/-! ## The obligations -/

/-- Settles O25, by the cursor. -/
theorem nextResult : Obligations.NextResult := by
  unfold Obligations.NextResult
  refine ⟨fun v arg => decode_opcode_append (i := .next) arg rfl nofun,
    fun s v e ht => ⟨fun hlt => ?_, fun hend => ?_, fun hunseeded => ?_⟩⟩
  · exact exec_eq_ok ht (e.extract_eq_of_lt hlt)
  · exact exec_eq_ok ht (e.extract_eq_of_eq hend)
  · exact exec_eq_error ht (e.extract_eq_of_unseeded hunseeded)

/-- Settles O26: on MT64 the cases of NEXT with the data narrowed, on MT32 no case at all. -/
theorem next32Result : Obligations.Next32Result := by
  unfold Obligations.Next32Result
  refine ⟨fun arg => decode_opcode_append (i := .next32) arg rfl nofun, fun arg => ?_,
    fun s e ht => exec_eq_error (i := .next32) ht rfl,
    fun s e ht => ⟨fun hlt => ?_, fun hend => ?_, fun hunseeded => ?_⟩⟩
  · exact decode_of_opcode (i := .next32) (congrArg _ (opField_append .mt32 _ arg)) nofun
  · rw [← low32_eq_and]
    exact exec_eq_ok ht (Engine.next32_eq_ok (e.extract_eq_of_lt hlt))
  · rw [← low32_eq_and]
    exact exec_eq_ok ht (Engine.next32_eq_ok (e.extract_eq_of_eq hend))
  · exact exec_eq_error ht (Engine.next32_eq_error (e.extract_eq_of_unseeded hunseeded))

/-- Settles O27: the row starts with an engine that has had no extraction since its seeding. -/
theorem extractionSequence : Obligations.ExtractionSequence := by
  unfold Obligations.ExtractionSequence
  intro s d v e narrow rest hd hseeded hne hrow hin
  cases narrow with
  | nil => exact absurd rfl hne
  | cons b row =>
    have hd₀ : s.inst[d]? = some ⟨v, e.afterExtractions 0⟩ := by rwa [Engine.afterExtractions_zero hseeded]
    refine (run_extractions hrow hd₀ hin).trans ?_
    rw [Nat.zero_add, Engine.afterExtractions_of_pos e row.length.succ_pos]
    rfl

end Sys2Proof.Machine
end

section
/-! PROOFS. The system commands (spec/42_system.md R120 to R122). That a copy and its original answer alike goes in two
halves: a port answers a row of extractions as its own engine does, whatever is sent to the other ports in between
(`run_extractions_interleaved`), and an engine answers every row as the one it was copied from
(`Engine.answers_copyFrom`). -/

namespace Sys2Proof.Machine

section
variable {s : State} {v : Variant} {e b : Engine v}

theorem effect_clone_seeded {src : Nat} (e : Engine v) (hb : s.inst[src]? = some ⟨v, b⟩)
    (hcursor : b.cursor ≠ v.N + 1) : effect s (.clone src) v e = .ok (e.copyFrom b, 0) :=
  (effect_clone hb).trans (e.clone_seeded hcursor)

theorem wellFormed_clone {src : Nat} (h : src < 2 ^ v.W) : (Instr.clone src).wellFormed v = true :=
  Instr.wellFormed_iff.mpr ⟨Instr.operandFits_iff.mpr fun _ ha => Option.some.inj ha ▸ h, rfl⟩

/-! ## Extractions as answers of an engine -/

/-- R130: what an engine effect leaves of `e`, with the status and the data of its answer. -/
def Engine.settle (e : Engine v) : Except Error (Engine v × Word v) → Engine v × Status × Word v
  | .ok (e', x) => (e', .ok, x)
  | .error err => (e, .error err, 0)

theorem exec_eq_settle (i : Instr) (ht : s.inst[s.target]? = some ⟨v, e⟩) :
    exec i s = .next { s with
      inst := s.inst.set s.target ⟨v, (e.settle (effect s i v e)).1⟩
      responses := s.responses ++
        [⟨s.target, v, (e.settle (effect s i v e)).2.1, (e.settle (effect s i v e)).2.2⟩] } := by
  cases hf : effect s i v e with
  | ok r => exact exec_eq_ok ht hf
  | error err => simp only [exec_eq_error ht hf, Engine.settle, set_target_self ht]

/-- R105, R106: the engine effect of an extraction command. -/
def Engine.extraction (narrow : Bool) (e : Engine v) : Except Error (Engine v × Word v) :=
  if narrow then e.next32 else e.extract

theorem effect_extraction_eq (narrow : Bool) : effect s (Instr.extraction narrow) v e = e.extraction narrow := by
  cases narrow <;> rfl

/-- R105, R106: what an extraction command leaves of `e`, and its answer. -/
def Engine.answer (narrow : Bool) (e : Engine v) : Engine v × Status × Word v := e.settle (e.extraction narrow)

/-- The answers of an engine to a row of extraction commands. -/
def Engine.answers : List Bool → Engine v → List (Status × Nat)
  | [], _ => []
  | narrow :: row, e =>
    ((e.answer narrow).2.1, (e.answer narrow).2.2.toNat) :: (e.answer narrow).1.answers row

/-! ## A copy answers as its source -/

theorem Engine.ready_copyFrom (e b : Engine v) : (e.copyFrom b).ready = e.copyFrom b.ready := by
  have hdue : (e.copyFrom b).twistDue = b.twistDue := rfl
  rw [Engine.ready, Engine.ready, hdue]
  split <;> rfl

/-- R121: an extraction reads and writes what CLONE copies, and nothing else. -/
theorem Engine.extract_copyFrom (e b : Engine v) :
    (e.copyFrom b).extract = b.extract.map fun r => (e.copyFrom r.1, r.2) := by
  have hseeded : (e.copyFrom b).seeded = b.seeded := rfl
  simp only [Engine.extract, hseeded, Engine.ready_copyFrom]
  split <;> rfl

theorem Engine.extraction_copyFrom (narrow : Bool) (e b : Engine v) :
    (e.copyFrom b).extraction narrow = (b.extraction narrow).map fun r => (e.copyFrom r.1, r.2) := by
  cases narrow with
  | false => exact e.extract_copyFrom b
  | true =>
    cases v with
    | mt32 => rfl
    | mt64 =>
      simp only [Engine.extraction, Engine.next32, Engine.extract_copyFrom, if_true]
      cases b.extract <;> rfl

theorem Engine.answer_copyFrom (narrow : Bool) (e b : Engine v) :
    (e.copyFrom b).answer narrow = (e.copyFrom (b.answer narrow).1, (b.answer narrow).2) := by
  simp only [Engine.answer, Engine.extraction_copyFrom]
  cases b.extraction narrow <;> rfl

/-- R122: a copy answers every row of extractions as its source does. -/
theorem Engine.answers_copyFrom (row : List Bool) (e b : Engine v) :
    (e.copyFrom b).answers row = b.answers row := by
  induction row generalizing b with
  | nil => rfl
  | cons narrow row ih => simp only [Engine.answers, Engine.answer_copyFrom, ih]

/-! ## Extractions to several ports, interleaved -/

/-- R139: NEXT32 is answered on an MT32 port alike as an illegal word and as a command. -/
theorem runWord_extraction (narrow : Bool) (ht : s.inst[s.target]? = some ⟨v, e⟩) :
    runWord s v (encode v (Instr.extraction narrow)) = exec (Instr.extraction narrow) s := by
  by_cases hwf : (Instr.extraction narrow).wellFormed v = true
  · exact runWord_of_decode (decode_encode_of_wellFormed hwf)
  · obtain ⟨rfl, hnarrow⟩ := Classical.not_imp.mp (mt Instr.wellFormed_extraction hwf)
    obtain rfl : narrow = true := Bool.eq_true_of_not_eq_false hnarrow
    exact (exec_eq_error (i := .next32) ht rfl).symm

/-- The response on port `d` of an engine to an extraction command. -/
def Engine.answerOn (d : Nat) (narrow : Bool) (e : Engine v) : Response :=
  ⟨d, v, (e.answer narrow).2.1, (e.answer narrow).2.2⟩

/-- R105, R106, R139: one extraction command on any port, refused or not. -/
theorem step_extraction_answer {d : Nat} {narrow : Bool} {rest : List Input} (hd : s.inst[d]? = some ⟨v, e⟩)
    (hin : s.inputs = .command d (encode v (Instr.extraction narrow)).toNat :: rest) :
    ∃ t, step s = .next t ∧ t.inputs = rest ∧ t.inst = s.inst.set d ⟨v, (e.answer narrow).1⟩ ∧
      t.responses = s.responses ++ [e.answerOn d narrow] := by
  have hd' : (s.present d rest).inst[(s.present d rest).target]? = some ⟨v, e⟩ := hd
  rw [step_word hin hd (encode v _).isLt, ofNat_toNat_encode, runWord_extraction narrow hd', exec_eq_settle _ hd',
    effect_extraction_eq]
  exact ⟨_, rfl, rfl, rfl, rfl⟩

/-- The statuses and the data of the responses on port `q`. -/
def answersOn (q : Nat) (rs : List Response) : List (Status × Nat) :=
  (rs.filter fun r => r.port == q).map fun r => (r.status, r.data.toNat)

/-- The extractions that a row of ports and extractions sends to port `q`. -/
def rowOn (q : Nat) (cmds : List (Nat × Bool)) : List Bool := (cmds.filter fun c => c.1 == q).map Prod.snd

section
variable {p q : Nat} {narrow : Bool} {new : List Response} {cmds : List (Nat × Bool)}

theorem answersOn_cons_self : answersOn p (e.answerOn p narrow :: new) =
    ((e.answer narrow).2.1, (e.answer narrow).2.2.toNat) :: answersOn p new := by
  simp [answersOn, Engine.answerOn]

theorem answersOn_cons_other (h : p ≠ q) : answersOn q (e.answerOn p narrow :: new) = answersOn q new := by
  simp [answersOn, Engine.answerOn, h]

theorem rowOn_cons_self : rowOn p ((p, narrow) :: cmds) = narrow :: rowOn p cmds := by simp [rowOn]

theorem rowOn_cons_other (h : p ≠ q) : rowOn q ((p, narrow) :: cmds) = rowOn q cmds := by simp [rowOn, h]

end

/-- R122: whatever the interleaving, each port answers its own row as its engine does. -/
theorem run_extractions_interleaved {rest : List Input} (cmds : List (Nat × Bool))
    (hports : ∀ c ∈ cmds, ∃ e : Engine v, s.inst[c.1]? = some ⟨v, e⟩)
    (hin : s.inputs = cmds.map (fun c => .command c.1 (encode v (Instr.extraction c.2)).toNat) ++ rest) :
    ∃ t new, Host.Core.run Sys2Proof.core cmds.length s = .next t ∧ t.inputs = rest ∧
      t.responses = s.responses ++ new ∧ new.length = cmds.length ∧
      ∀ (q : Nat) (e : Engine v), s.inst[q]? = some ⟨v, e⟩ → answersOn q new = e.answers (rowOn q cmds) := by
  induction cmds generalizing s with
  | nil => exact ⟨s, [], rfl, hin, (List.append_nil _).symm, rfl, fun _ _ _ => rfl⟩
  | cons c cmds ih =>
    obtain ⟨p, narrow⟩ := c
    obtain ⟨f, hp⟩ := hports _ List.mem_cons_self
    obtain ⟨s₁, hstep, hin₁, hinst₁, hresp₁⟩ := step_extraction_answer hp hin
    have hself : s₁.inst[p]? = some ⟨v, (f.answer narrow).1⟩ := hinst₁ ▸ getElem?_set_target _ hp
    have hother (q : Nat) (hq : p ≠ q) : s₁.inst[q]? = s.inst[q]? := hinst₁ ▸ List.getElem?_set_ne hq
    have hports₁ : ∀ c ∈ cmds, ∃ e : Engine v, s₁.inst[c.1]? = some ⟨v, e⟩ := fun c hc => by
      by_cases hq : p = c.1
      · exact ⟨_, hq ▸ hself⟩
      · rw [hother c.1 hq]
        exact hports c (List.mem_cons_of_mem _ hc)
    obtain ⟨t, new, hrun, hrest, hresp, hlen, hans⟩ := ih hports₁ hin₁
    refine ⟨t, f.answerOn p narrow :: new, (run_succ_of_step _ hstep).trans hrun, hrest, ?_, congrArg (· + 1) hlen,
      fun q e hqe => ?_⟩
    · rw [hresp, hresp₁, List.append_assoc, List.singleton_append]
    · by_cases hq : p = q
      · subst hq
        cases hp.symm.trans hqe
        rw [answersOn_cons_self, rowOn_cons_self, hans p _ hself, Engine.answers]
      · rw [answersOn_cons_other hq, rowOn_cons_other hq]
        exact hans q e ((hother q hq).trans hqe)

/-! ## Two ports -/

/-- A command of a row to a copy `d` and its original `src`, with its port: the copy where the first part is true. -/
def withPort (d src : Nat) (p : Bool × Bool) : Nat × Bool := (if p.1 then d else src, p.2)

/-- What a row sends to port `q` is what it sends where `toQ` says so. -/
theorem rowOn_map_withPort {d src q : Nat} {toQ : Bool × Bool → Bool}
    (h : ∀ p, ((withPort d src p).1 == q) = toQ p) (seq : List (Bool × Bool)) :
    rowOn q (seq.map (withPort d src)) = (seq.filter toQ).map Prod.snd := by
  have hport : (fun c : Nat × Bool => c.1 == q) ∘ withPort d src = toQ := funext h
  rw [rowOn, List.filter_map, List.map_map, hport]
  rfl

theorem withPort_eq_copy {d src : Nat} (hne : d ≠ src) (p : Bool × Bool) : ((withPort d src p).1 == d) = p.1 := by
  cases hp : p.1 <;> simp [withPort, hp, hne.symm]

theorem withPort_eq_original {d src : Nat} (hne : d ≠ src) (p : Bool × Bool) :
    ((withPort d src p).1 == src) = !p.1 := by
  cases hp : p.1 <;> simp [withPort, hp, hne]

end

/-! ## The obligations -/

/-- Settles O32: after the CLONE each of the two ports answers as its own engine, and the copy's engine answers as the
one it was copied from. -/
theorem cloneIndependence : Obligations.CloneIndependence := by
  unfold Obligations.CloneIndependence
  intro s v e b d src seq rest hne hd hsrc hseeded hfits hin hrows
  have hclone := step_encoded_ok hin hd (wellFormed_clone hfits) (effect_clone_seeded e hsrc hseeded)
  have hcopy := getElem?_set_target (⟨v, e.copyFrom b⟩ : Inst) hd
  have horiginal : (s.inst.set d ⟨v, e.copyFrom b⟩)[src]? = some ⟨v, b⟩ := (List.getElem?_set_ne hne).trans hsrc
  have hports : ∀ c ∈ seq.map (withPort d src), ∃ f : Engine v,
      (s.inst.set d ⟨v, e.copyFrom b⟩)[c.1]? = some ⟨v, f⟩ := by
    intro c hc
    obtain ⟨⟨toCopy, narrow⟩, -, rfl⟩ := List.mem_map.mp hc
    cases toCopy with
    | true => exact ⟨_, hcopy⟩
    | false => exact ⟨_, horiginal⟩
  obtain ⟨t, new, hrun, hrest, hresp, hlen, hans⟩ := run_extractions_interleaved (s := { s with
    target := d, inputs := _, inst := s.inst.set d ⟨v, e.copyFrom b⟩
    responses := s.responses ++ [⟨d, v, .ok, 0⟩] }) (seq.map (withPort d src)) hports (by rw [List.map_map])
  rw [List.length_map] at hrun hlen
  refine ⟨t, new, (run_succ_of_step _ hclone).trans hrun, hrest, by simpa using hresp, hlen, ?_⟩
  calc answersOn d new
    _ = (e.copyFrom b).answers (rowOn d (seq.map (withPort d src))) := hans d _ hcopy
    _ = b.answers (rowOn d (seq.map (withPort d src))) := Engine.answers_copyFrom _ e b
    _ = b.answers (rowOn src (seq.map (withPort d src))) := by
      rw [rowOn_map_withPort (withPort_eq_copy hne), rowOn_map_withPort (withPort_eq_original hne), hrows]
    _ = answersOn src new := (hans src b horiginal).symm

/-- Settles O28: RDCUR makes no check, and writes back the engine it read. -/
theorem rdcurResult : Obligations.RdcurResult := by
  unfold Obligations.RdcurResult
  refine ⟨fun v arg => decode_opcode_append (i := .rdcur) arg rfl nofun, fun s v e ht => ?_⟩
  rw [exec_eq_ok (i := .rdcur) ht rfl, set_target_self ht]
  rfl

/-- Settles O29, by what the operand names. -/
theorem cloneResult : Obligations.CloneResult := by
  unfold Obligations.CloneResult
  refine ⟨fun v arg => decode_opcode_append (i := .clone arg.toNat) arg rfl fun _ => Option.some.inj,
    fun s v e arg ht => ⟨fun hnone => ?_, fun x hx hvariant => ?_, fun b hb hcursor => ?_, fun b hb hcursor => ?_⟩⟩
  · exact exec_eq_error ht ((effect_clone (List.getElem?_eq_none hnone)).trans e.clone_none)
  · exact exec_eq_error ht ((effect_clone hx).trans (e.clone_other_variant hvariant))
  · exact exec_eq_error ht ((effect_clone hb).trans (e.clone_unseeded hcursor))
  · exact exec_eq_ok ht (effect_clone_seeded e hb hcursor)

/-- Settles O31: the copy of an engine onto itself is that engine, and writing it back changes nothing. -/
theorem cloneOfItselfChangesNothing : Obligations.CloneOfItselfChangesNothing := by
  unfold Obligations.CloneOfItselfChangesNothing
  intro s v e ht hcursor
  have hself : e.copyFrom e = e := rfl
  rw [exec_eq_ok ht (effect_clone_seeded e ht hcursor), hself, set_target_self ht]

end Sys2Proof.Machine
end

section
/-! PROOFS. Refusals (spec/60_exceptions.md R130 to R136, R139) and the idle block (R148). What refuses a command is
said once, error by error (`RefusalCause`): a command's engine effect is an error exactly when that error has its cause
(`effect_eq_error_iff`), and the status of the response is that error. -/

namespace Sys2Proof.Machine

section
variable {s t : State} {i : Instr} {v : Variant} {e : Engine v} {err : Error}

/-! ## Inversions: why a command is refused -/

theorem Engine.extract_error (h : e.extract = .error err) : err = .notSeeded ∧ e.cursor = v.N + 1 := by
  unfold Engine.extract at h
  split at h
  · cases h
  · next hs => cases h; exact ⟨rfl, not_not.mp (mt (Engine.seeded_iff e).mpr hs)⟩

theorem Engine.kpush_error {keyMax arg : Nat} (h : e.kpush keyMax arg = .error err) :
    err = .keyOverflow ∧ e.keyLen = keyMax := by
  unfold Engine.kpush at h
  split at h
  · next hfull => cases h; exact ⟨rfl, (Engine.keyFull_iff keyMax e).mp hfull⟩
  · cases h

theorem Engine.seedk_error (h : e.seedk = .error err) : err = .invalidSeed ∧ e.keyLen = 0 := by
  unfold Engine.seedk at h
  split at h
  · next hempty => cases h; exact ⟨rfl, (Engine.keyEmpty_iff e).mp hempty⟩
  · cases h

/-- R139: on MT32 the only error is the illegal command, on MT64 it is that of NEXT. -/
theorem Engine.next32_error (h : e.next32 = .error err) :
    v = .mt32 ∧ err = .illegalCommand ∨ v = .mt64 ∧ e.extract = .error err := by
  cases v with
  | mt32 => cases h; exact .inl ⟨rfl, rfl⟩
  | mt64 =>
    cases hx : e.extract with
    | ok r => cases (Engine.next32_eq_ok hx).symm.trans h
    | error err' => cases (Engine.next32_eq_error hx).symm.trans h; exact .inr ⟨rfl, rfl⟩

theorem Engine.clone_error {src : Option Inst} (h : e.clone src = .error err) :
    err = .badOperand ∧ (src = none ∨ ∃ x, src = some x ∧ x.variant ≠ v) ∨
    err = .notSeeded ∧ ∃ b : Engine v, src = some ⟨v, b⟩ ∧ b.cursor = v.N + 1 := by
  match src with
  | none => cases h; exact .inl ⟨rfl, .inl rfl⟩
  | some ⟨u, b⟩ =>
    by_cases hu : u = v
    · subst hu
      by_cases hb : b.cursor = u.N + 1
      · cases (e.clone_unseeded hb).symm.trans h; exact .inr ⟨rfl, b, rfl, hb⟩
      · cases (e.clone_seeded hb).symm.trans h
    · cases (e.clone_other_variant (x := ⟨u, b⟩) hu).symm.trans h; exact .inl ⟨rfl, .inr ⟨_, rfl, hu⟩⟩

/-! ## The cause of each error -/

/-- R132 to R136, R139: what must hold of a command, the system and the engine it is sent to for the command to be
refused with an error. -/
def RefusalCause (i : Instr) (s : State) {v : Variant} (e : Engine v) : Error → Prop
  | .invalidSeed => i = .seedk ∧ e.keyLen = 0
  | .notSeeded =>
    (i = .next ∧ e.cursor = v.N + 1) ∨ (i = .next32 ∧ v = .mt64 ∧ e.cursor = v.N + 1) ∨
    ∃ (src : Nat) (b : Engine v), i = .clone src ∧ s.inst[src]? = some ⟨v, b⟩ ∧ b.cursor = v.N + 1
  | .illegalCommand => i = .next32 ∧ v = .mt32
  | .keyOverflow => ∃ arg, i = .kpush arg ∧ e.keyLen = s.keyMax
  | .badOperand => ∃ src, i = .clone src ∧ (s.numInst ≤ src ∨ ∃ x, s.inst[src]? = some x ∧ x.variant ≠ v)

/-- Every refusal has its cause: by the command. -/
theorem refusalCause_of_effect (h : effect s i v e = .error err) : RefusalCause i s e err := by
  cases i with
  | seed arg | kclr | rdcur => cases h
  | kpush arg =>
    obtain ⟨rfl, hfull⟩ := Engine.kpush_error h
    exact ⟨arg, rfl, hfull⟩
  | seedk =>
    obtain ⟨rfl, hempty⟩ := Engine.seedk_error h
    exact ⟨rfl, hempty⟩
  | next =>
    obtain ⟨rfl, hcursor⟩ := Engine.extract_error h
    exact .inl ⟨rfl, hcursor⟩
  | next32 =>
    obtain ⟨hv, rfl⟩ | ⟨hv, hx⟩ := Engine.next32_error h
    · exact ⟨rfl, hv⟩
    · obtain ⟨rfl, hcursor⟩ := Engine.extract_error hx
      exact .inr (.inl ⟨rfl, hv, hcursor⟩)
  | clone src =>
    obtain ⟨rfl, hnone | hother⟩ | ⟨rfl, b, hb, hcursor⟩ := Engine.clone_error h
    · exact ⟨src, rfl, .inl (List.getElem?_eq_none_iff.mp hnone)⟩
    · exact ⟨src, rfl, .inr hother⟩
    · exact .inr (.inr ⟨src, b, rfl, hb, hcursor⟩)

/-- Every cause refuses its command: by the error. -/
theorem effect_of_refusalCause (h : RefusalCause i s e err) : effect s i v e = .error err := by
  cases err with
  | invalidSeed =>
    obtain ⟨rfl, hempty⟩ := h
    exact e.seedk_eq_error hempty
  | notSeeded =>
    obtain ⟨rfl, hcursor⟩ | ⟨rfl, rfl, hcursor⟩ | ⟨src, b, rfl, hb, hcursor⟩ := h
    · exact e.extract_eq_of_unseeded hcursor
    · exact Engine.next32_eq_error (e.extract_eq_of_unseeded hcursor)
    · exact (effect_clone hb).trans (e.clone_unseeded hcursor)
  | illegalCommand =>
    obtain ⟨rfl, rfl⟩ := h
    rfl
  | keyOverflow =>
    obtain ⟨arg, rfl, hfull⟩ := h
    exact e.kpush_eq_error arg hfull
  | badOperand =>
    obtain ⟨src, rfl, hnone | ⟨x, hx, hvariant⟩⟩ := h
    · exact (effect_clone (List.getElem?_eq_none hnone)).trans e.clone_none
    · exact (effect_clone hx).trans (e.clone_other_variant hvariant)

theorem effect_eq_error_iff : effect s i v e = .error err ↔ RefusalCause i s e err :=
  ⟨refusalCause_of_effect, effect_of_refusalCause⟩

/-- R131: the status of the response is the error of the engine effect. -/
theorem exec_status_eq_error_iff {r : Response} (ht : s.inst[s.target]? = some ⟨v, e⟩) (h : exec i s = .next t)
    (hr : t.responses = s.responses ++ [r]) : r.status = .error err ↔ effect s i v e = .error err := by
  cases hf : effect s i v e with
  | ok p =>
    cases (exec_eq_ok ht hf).symm.trans h
    cases List.append_cancel_left hr
    exact ⟨nofun, nofun⟩
  | error err' =>
    cases (exec_eq_error ht hf).symm.trans h
    cases List.append_cancel_left hr
    exact ⟨fun hst => congrArg _ (Status.error.inj hst), fun herr => congrArg _ (Except.error.inj herr)⟩

/-! ## One response for each command word -/

/-- R60, R130: `t` is `s` with one response more, on the port of the target, and with the same inputs to come; after a
refusal the response has zero data and is the only difference. -/
def AnswersOnce (s t : State) : Prop :=
  ∃ r : Response, r.port = s.target ∧ t.responses = s.responses ++ [r] ∧ t.inputs = s.inputs ∧
    (r.status ≠ .ok → r.data = 0 ∧ t = { s with responses := s.responses ++ [r] })

theorem State.raise_answersOnce (s : State) (v : Variant) (err : Error) : AnswersOnce s (s.raise v err) :=
  ⟨_, rfl, rfl, rfl, fun _ => ⟨rfl, rfl⟩⟩

theorem exec_answersOnce (h : exec i s = .next t) : AnswersOnce s t := by
  obtain ⟨v, e, -, ⟨e', x, -, rfl⟩ | ⟨err, -, rfl⟩⟩ := exec_cases h
  · exact ⟨_, rfl, rfl, rfl, fun hst => absurd rfl hst⟩
  · exact s.raise_answersOnce v err

theorem step_answersOnce {d word : Nat} {rest : List Input} (hin : s.inputs = .command d word :: rest)
    (h : step s = .next t) : AnswersOnce (s.present d rest) t := by
  obtain ⟨hidle, -⟩ | ⟨d', word', rest', x, i, hcmd, -, -, hexec⟩ | ⟨d', word', rest', x, why, hcmd, -, -, rfl⟩ |
    ⟨q, rest', hrst, -⟩ := step_cases h
  · cases hin.symm.trans hidle
  · cases hin.symm.trans hcmd
    exact exec_answersOnce hexec
  · cases hin.symm.trans hcmd
    exact State.raise_answersOnce _ _ _
  · cases hin.symm.trans hrst

/-! ## Illegal command words -/

theorem runWord_of_illegal {cw : CommandWord v} {why : Illegal} (h : decode v cw = .illegal why) :
    runWord s v cw = .next (s.raise v .illegalCommand) := by
  simp only [runWord, h]

/-- R134: the three classes of illegal opcodes. -/
theorem decode_illegal {cw : CommandWord v}
    (hop : cw.toNat / 2 ^ v.W = 0 ∨ 9 ≤ cw.toNat / 2 ^ v.W ∨ cw.toNat / 2 ^ v.W = 6 ∧ v = .mt32) :
    ∃ why, decode v cw = .illegal why := by
  obtain hzero | hreserved | ⟨hsix, rfl⟩ := hop
  · exact ⟨_, decode_of_reserved (.inl ((opField_toNat v cw).trans hzero))⟩
  · exact ⟨_, decode_of_reserved (.inr ((opField_toNat v cw).symm ▸ hreserved))⟩
  · exact ⟨_, decode_of_div_mod (i := .next32) hsix nofun⟩

end

/-! ## The obligations -/

/-- Settles O7: the word does not decode to a command. -/
theorem stepRefusesIllegalWord : Obligations.StepRefusesIllegalWord := by
  unfold Obligations.StepRefusesIllegalWord
  intro s d word rest v e hin hd hword hop
  have hnat : (BitVec.ofNat (8 + v.W) word).toNat = word :=
    (BitVec.toNat_ofNat _ _).trans (Nat.mod_eq_of_lt hword)
  obtain ⟨why, hdec⟩ := decode_illegal (cw := BitVec.ofNat (8 + v.W) word) (by rwa [hnat])
  exact (step_word hin hd hword).trans (runWord_of_illegal hdec)

/-- Settles O35: the one response is added in the state in which the word is taken. -/
theorem refusedCommandChangesNothing : Obligations.RefusedCommandChangesNothing := by
  unfold Obligations.RefusedCommandChangesNothing
  exact fun _ _ _ _ _ hin h => step_answersOnce hin h

/-- Settles O36: each status is the error of the command's effect, which has its cause. -/
theorem refusalCausesAreExact : Obligations.RefusalCausesAreExact := by
  unfold Obligations.RefusalCausesAreExact
  intro i s t v e r ht h hr
  have hcause (err : Error) : r.status = .error err ↔ RefusalCause i s e err :=
    (exec_status_eq_error_iff ht h hr).trans effect_eq_error_iff
  exact ⟨hcause .invalidSeed, hcause .notSeeded, hcause .illegalCommand, hcause .keyOverflow, hcause .badOperand⟩

/-- Settles O8: there is no input to take. -/
theorem idleStepKeepsState : Obligations.IdleStepKeepsState := by
  unfold Obligations.IdleStepKeepsState
  exact fun _ => step_idle

end Sys2Proof.Machine
end

section
/-! PROOFS. The reset event in a running system (spec/70_reset_and_hazards.md R160, R167). -/

namespace Sys2Proof.Machine

/-- R27, R160: reset keeps the number of instances. -/
theorem resetEvent_keeps_numInst {s t : State} (h : resetEvent s = .next t) : t.inst.length = s.inst.length := by
  cases h
  simp

/-- R160: at each number, reset leaves the reset engine of the variant that stood there. -/
theorem resetEvent_getElem? {s t : State} {d : Nat} {v : Variant} {e : Engine v} (h : resetEvent s = .next t)
    (hd : s.inst[d]? = some ⟨v, e⟩) : t.inst[d]? = some ⟨v, Engine.reset v s.keyMax (s.resets + 1) d⟩ := by
  cases h
  simp [getElem?_resetInsts, hd]

/-- Settles O9: the step is the reset event, whatever was in flight, and each instance is a reset engine after it. -/
theorem resetUnseedsEveryInstance : Obligations.ResetUnseedsEveryInstance := by
  unfold Obligations.ResetUnseedsEveryInstance
  intro s inFlight rest hin
  have hreset : resetEvent { s with inputs := rest } = .next _ := rfl
  have hnum := resetEvent_keeps_numInst hreset
  refine ⟨_, (step_rst hin).trans hreset, rfl, rfl, rfl, hnum, fun d v e hd => ?_⟩
  have hd' := resetEvent_getElem? hreset hd
  exact ⟨_, hd', Engine.reset_cursor .., Engine.reset_keyLen .., Engine.length_reset_words ..,
    Engine.length_reset_key ..⟩

end Sys2Proof.Machine
end
